-- ==== Sys2Proof/Word.lean ====
section
/-! DEFINITION. The words of the register space: bytes, 32-bit register words, and wide registers as
the spec lays them out (20_memory.md R62, 10_state.md R38). -/

namespace Sys2Proof

/-- One byte lane of a register word (R62). -/
abbrev Byte := BitVec 8

/-- One 32-bit register word (R20, R61). -/
abbrev Word := BitVec 32

/-- A wide register as its `NWORDS` words, word 0 (bits 31:0) first (R38). -/
abbrev Wide := List Word

end Sys2Proof
end

