-- ==== Sys2Proof/Syntax.lean ====
section
/-! DEFINITION. The commands: one constructor per row of the opcode map (30_encoding.md R96). -/

namespace Sys2Proof

/-- The sampling point of `BF_NEXT` (R93, 41_bitfolder.md R143). -/
inductive SamplePoint where
  | t2
  | t3
  deriving DecidableEq, Repr

/-- The result policy of `MR_TEST` (R93, 43_miller_rabin.md R204–R206). -/
inductive Policy where
  | s
  | ca
  | co
  deriving DecidableEq, Repr

/-- A command form of R96. `k` is the witness count `K` of R95, a natural number that
`Instr.WellFormed` bounds by the field's width. -/
inductive Instr where
  | nop
  | bfInit
  | bfNextT2
  | bfNextT3
  | powmod
  | jacobi
  | mrTestS (k : Nat)
  | mrTestCA (k : Nat)
  | mrTestCO (k : Nat)
  | ssTest (k : Nat)
  deriving DecidableEq, Repr

end Sys2Proof
end

