-- ==== Sys2Proof/WellFormed.lean ====
section
/-! DEFINITION. Which commands the encoding can carry: the count fits the 16-bit field `K`
(30_encoding.md R95; the assembler refuses any other value, R101). -/

namespace Sys2Proof

/-- The check on a witness count: `0 <= k <= 65535` (R95, R101). -/
def countFits (k : Nat) : Bool := k ≤ 65535

/-- The check on a command. -/
def Instr.wf : Instr → Bool
  | .nop => true
  | .bfInit => true
  | .bfNextT2 => true
  | .bfNextT3 => true
  | .powmod => true
  | .jacobi => true
  | .mrTestS k => countFits k
  | .mrTestCA k => countFits k
  | .mrTestCO k => countFits k
  | .ssTest k => countFits k

/-- Well-formed commands. -/
abbrev Instr.WellFormed (i : Instr) : Prop := i.wf = true

end Sys2Proof
end

