-- ==== Sys2Proof/Decode.lean ====
section
/-! DEFINITION. Decoding a command word, total on every word and every list of bytes, and the
encoder (30_encoding.md R90–R98, 20_memory.md R62). -/

namespace Sys2Proof

/-- `OP = c[7:0]` (R91, R92). -/
def opField (c : Word) : BitVec 8 := c.extractLsb' 0 8

/-- `MOD = c[11:8]` (R91, R93). -/
def modField (c : Word) : BitVec 4 := c.extractLsb' 8 4

/-- `RSV = c[15:12]` (R91, R94). -/
def rsvField (c : Word) : BitVec 4 := c.extractLsb' 12 4

/-- `K = c[31:16]` (R91, R95). -/
def kField (c : Word) : BitVec 16 := c.extractLsb' 16 16

/-- Why a word matches no row of R96; the engine reports every one of these as
`ILLEGAL_COMMAND` (R98). -/
inductive Illegal where
  /-- `RSV` is not 0 (R94). -/
  | reservedBits
  /-- `OP` is a reserved opcode (R98). -/
  | reservedOpcode
  /-- A modifier the opcode does not have, `POL = 3` among them (R93). -/
  | badModifier
  /-- `K` is not 0 outside the tests (R95). -/
  | strayCount
  /-- Fewer than the four bytes of a command (R90). -/
  | tooShort
  deriving DecidableEq, Repr

/-- A form with neither modifier nor count (R97, first and last case lines). -/
def decodePlain (md : BitVec 4) (k : BitVec 16) (i : Instr) : Except Illegal Instr :=
  if md ≠ 0 then .error .badModifier else if k ≠ 0 then .error .strayCount else .ok i

/-- The `BF_NEXT` forms (R93, R97). -/
def decodeBfNext (md : BitVec 4) (k : BitVec 16) : Except Illegal Instr :=
  if k ≠ 0 then .error .strayCount
  else if md = 0 then .ok .bfNextT2
  else if md = 1 then .ok .bfNextT3
  else .error .badModifier

/-- The `MR_TEST` forms (R93, R97). -/
def decodeMrTest (md : BitVec 4) (k : BitVec 16) : Except Illegal Instr :=
  if md = 0 then .ok (.mrTestS k.toNat)
  else if md = 1 then .ok (.mrTestCA k.toNat)
  else if md = 2 then .ok (.mrTestCO k.toNat)
  else .error .badModifier

/-- The `SS_TEST` form (R93, R97). -/
def decodeSsTest (md : BitVec 4) (k : BitVec 16) : Except Illegal Instr :=
  if md ≠ 0 then .error .badModifier else .ok (.ssTest k.toNat)

/-- The opcode map (R96), with the legality of R97. -/
def decode (c : Word) : Except Illegal Instr :=
  if rsvField c ≠ 0 then .error .reservedBits
  else if opField c = 0x00 then decodePlain (modField c) (kField c) .nop
  else if opField c = 0x01 then decodePlain (modField c) (kField c) .bfInit
  else if opField c = 0x02 then decodeBfNext (modField c) (kField c)
  else if opField c = 0x10 then decodePlain (modField c) (kField c) .powmod
  else if opField c = 0x11 then decodePlain (modField c) (kField c) .jacobi
  else if opField c = 0x20 then decodeMrTest (modField c) (kField c)
  else if opField c = 0x21 then decodeSsTest (modField c) (kField c)
  else .error .reservedOpcode

/-- The spec's own legality function, `legal(c)` of R97, kept apart from `decode`. -/
def legal (c : Word) : Bool :=
  if rsvField c ≠ 0 then false
  else if opField c = 0x00 ∨ opField c = 0x01 ∨ opField c = 0x10 ∨ opField c = 0x11 then
    modField c = 0 ∧ kField c = 0
  else if opField c = 0x02 then (modField c).toNat ≤ 1 ∧ kField c = 0
  else if opField c = 0x20 then (modField c).toNat ≤ 2
  else if opField c = 0x21 then modField c = 0
  else false

/-- `OP` of a form (R96). -/
def Instr.op : Instr → BitVec 8
  | .nop => 0x00
  | .bfInit => 0x01
  | .bfNextT2 => 0x02
  | .bfNextT3 => 0x02
  | .powmod => 0x10
  | .jacobi => 0x11
  | .mrTestS _ => 0x20
  | .mrTestCA _ => 0x20
  | .mrTestCO _ => 0x20
  | .ssTest _ => 0x21

/-- `MOD` of a form (R93, R96). -/
def Instr.md : Instr → BitVec 4
  | .nop => 0
  | .bfInit => 0
  | .bfNextT2 => 0
  | .bfNextT3 => 1
  | .powmod => 0
  | .jacobi => 0
  | .mrTestS _ => 0
  | .mrTestCA _ => 1
  | .mrTestCO _ => 2
  | .ssTest _ => 0

/-- `K` of a form (R95). -/
def Instr.count : Instr → Nat
  | .nop => 0
  | .bfInit => 0
  | .bfNextT2 => 0
  | .bfNextT3 => 0
  | .powmod => 0
  | .jacobi => 0
  | .mrTestS k => k
  | .mrTestCA k => k
  | .mrTestCO k => k
  | .ssTest k => k

/-- The assembled word, `K RSV MOD OP` from the most significant bit (R91, R101). -/
def encode (i : Instr) : Word := BitVec.ofNat 16 i.count ++ (0 : BitVec 4) ++ i.md ++ i.op

/-- The four byte lanes of a word, lane 0 (bits 7:0) first (R62). -/
def wordLanes (w : Word) : List Byte :=
  [w.extractLsb' 0 8, w.extractLsb' 8 8, w.extractLsb' 16 8, w.extractLsb' 24 8]

/-- The word of four byte lanes, lane 0 first (R62). -/
def wordOfLanes (b0 b1 b2 b3 : Byte) : Word := b3 ++ b2 ++ b1 ++ b0

/-- Decoding from the bytes of a packed host image: four bytes are one command, the rest is
returned (R62, R90). -/
def decodeBytes : List Byte → Except Illegal (Instr × List Byte)
  | b0 :: b1 :: b2 :: b3 :: rest => (decode (wordOfLanes b0 b1 b2 b3)).map (·, rest)
  | _ => .error .tooShort

/-- One row of the opcode map: a word `c` encodes the form when `c and mask = match` (R96). -/
structure OpcodeRow where
  mnemonic : String
  pattern : Word
  mask : Word
  deriving DecidableEq, Repr

/-- The opcode map of R96, in its order. -/
def opcodeRows : List OpcodeRow := [
  ⟨"NOP", 0x00000000, 0xFFFFFFFF⟩,
  ⟨"BF_INIT", 0x00000001, 0xFFFFFFFF⟩,
  ⟨"BF_NEXT.T2", 0x00000002, 0xFFFFFFFF⟩,
  ⟨"BF_NEXT.T3", 0x00000102, 0xFFFFFFFF⟩,
  ⟨"POWMOD", 0x00000010, 0xFFFFFFFF⟩,
  ⟨"JACOBI", 0x00000011, 0xFFFFFFFF⟩,
  ⟨"MR_TEST.S", 0x00000020, 0x0000FFFF⟩,
  ⟨"MR_TEST.CA", 0x00000120, 0x0000FFFF⟩,
  ⟨"MR_TEST.CO", 0x00000220, 0x0000FFFF⟩,
  ⟨"SS_TEST", 0x00000021, 0x0000FFFF⟩]

/-- The row of a form (R96). -/
def Instr.row : Instr → OpcodeRow
  | .nop => ⟨"NOP", 0x00000000, 0xFFFFFFFF⟩
  | .bfInit => ⟨"BF_INIT", 0x00000001, 0xFFFFFFFF⟩
  | .bfNextT2 => ⟨"BF_NEXT.T2", 0x00000002, 0xFFFFFFFF⟩
  | .bfNextT3 => ⟨"BF_NEXT.T3", 0x00000102, 0xFFFFFFFF⟩
  | .powmod => ⟨"POWMOD", 0x00000010, 0xFFFFFFFF⟩
  | .jacobi => ⟨"JACOBI", 0x00000011, 0xFFFFFFFF⟩
  | .mrTestS _ => ⟨"MR_TEST.S", 0x00000020, 0x0000FFFF⟩
  | .mrTestCA _ => ⟨"MR_TEST.CA", 0x00000120, 0x0000FFFF⟩
  | .mrTestCO _ => ⟨"MR_TEST.CO", 0x00000220, 0x0000FFFF⟩
  | .ssTest _ => ⟨"SS_TEST", 0x00000021, 0x0000FFFF⟩

/-- A word matches a row (R96). -/
abbrev OpcodeRow.Matches (r : OpcodeRow) (c : Word) : Prop := c &&& r.mask = r.pattern &&& r.mask

/-- The instruction the decoder reads from a word of the opcode table (bit 0 least significant,
bits above `nbits` zero), laid out in its byte lanes. No command is longer than 32 bits (R90). -/
def decodeTableWord (nbits w : Nat) : Option Instr :=
  if nbits ≤ 32 then
    match decodeBytes (wordLanes (BitVec.ofNat 32 (w % 2 ^ nbits))) with
    | .ok (i, _) => some i
    | .error _ => none
  else none

end Sys2Proof
end

