-- ==== Sys2Proof/Config.lean ====
section
/-! DEFINITION. The implementation parameters and the fixed constants (00_scope.md R5–R7,
10_state.md R22). -/

namespace Sys2Proof

/-- The parameters of one instance of the block (R5, R6): `NWORDS = NBITS / 32` and `WMAX`.
`NBITS` is a multiple of 32, so it is held by its number of words. -/
structure Config where
  nwords : Nat
  wmax : Nat
  deriving DecidableEq, Repr

/-- `NBITS`, the width of each wide register and of the witness port (R5). -/
def Config.nbits (c : Config) : Nat := 32 * c.nwords

/-- The legal parameters: `64 <= NBITS <= 32768` and `1 <= WMAX <= min(NBITS, 65535)` (R5, R6). -/
abbrev Config.Ok (c : Config) : Prop :=
  2 ≤ c.nwords ∧ c.nwords ≤ 1024 ∧ 1 ≤ c.wmax ∧ c.wmax ≤ c.nbits ∧ c.wmax ≤ 65535

/-- The reference configuration, `NBITS = 4096` and `WMAX = 4096` (R5, R6). -/
def Config.reference : Config := ⟨128, 4096⟩

/-- The block's base address in its platform: a parameter on which no rule depends
(20_memory.md R65, 93_implementation_defined.md I3). Uninterpreted: log 12. -/
opaque Config.pmodBase : Nat

/-- The platform address of a byte offset of the register space (R65). -/
def Config.platformAddress (off : BitVec 16) : Nat := Config.pmodBase + off.toNat

/-- `SEED_DEFAULT` = 2463534242 (R7). -/
def Config.seedDefault : Word := 0x92D68CA2

/-- The constant of the `ID` register, "PMOD" (R22). -/
def Config.idValue : Word := 0x504D4F44

end Sys2Proof
end

