-- ==== Sys2Proof/Machine/State.lean ====
section
/-! DEFINITION. The state of the block and of the agents around it, its stops and its reset
(10_state.md, 00_scope.md R12, 70_reset_and_hazards.md R290). Plain data throughout. -/

namespace Sys2Proof.Machine

open Sys2Proof

/-- The sequencer's phase (R42). -/
inductive Phase where
  | idle
  | run
  | waitWitness
  deriving DecidableEq, Repr

/-- The engine error codes 1–6 (60_exceptions.md R250). -/
inductive ErrCode where
  | illegalCommand
  | invalidWidth
  | invalidWitnessCount
  | invalidCandidate
  | invalidModulus
  | witnessRange
  deriving DecidableEq, Repr

/-- A commit set: the result registers and fields a command writes at its commit, each absent
when the command does not write it (R42, 40_control.md R124). The four fixed status writes of
R124 are no part of it. -/
structure CommitSet where
  r : Option Wide := none
  xs : Option Word := none
  prime : Option Bool := none
  jsym : Option (BitVec 2) := none
  rounds : Option (BitVec 16) := none
  deriving DecidableEq, Repr

/-- The response of a register-bus transaction (20_memory.md R61, 00_scope.md R13). -/
inductive Response where
  /-- A read completed with its data. -/
  | data (w : Word)
  /-- A write completed. -/
  | ok
  /-- The transaction ended with `BUS_ERROR` and changed nothing (R72). -/
  | busError
  deriving DecidableEq, Repr

/-- What the host does in one of its turns (30_encoding.md R102, R103). `bytes` is the
transaction's width; only 4 is served (R63). -/
inductive HostStmt where
  /-- `BusRead(off, bytes)` -/
  | read (off : BitVec 16) (bytes : Nat)
  /-- `BusWrite(off, bytes, v)` -/
  | write (off : BitVec 16) (bytes : Nat) (v : Word)
  /-- `WAIT`: read `STATUS` again and again until `DONE` reads 1 (R103). -/
  | wait
  deriving DecidableEq, Repr

/-- Which agent moves, and with what (00_scope.md R12). -/
inductive Turn where
  /-- The host performs the next statement of its script. -/
  | host
  /-- The engine sequencer takes a step. -/
  | engine
  /-- The witness source presents `a` on `wit_data` with `wit_valid = 1`. -/
  | witness (a : Nat)
  /-- `rst_n` falls (70_reset_and_hazards.md R291). -/
  | rstLow
  /-- `rst_n` is released (R291). -/
  | rstHigh
  /-- Power or the clock is removed, which a model treats as a reset (60_exceptions.md R285). -/
  | powerLoss
  deriving DecidableEq, Repr

/-- The state: the configuration, the architectural registers of R20, the hidden sequencer
state of R42, the ports of R44, and the schedule of the agents. `STATUS.BUSY` and `STATUS.WREQ`
are views of `phase` (R42), `ID` and `PARAM` are constants (R22, R23). -/
structure State where
  /-- `NWORDS` and `WMAX`, constant for an instance (R5, R6). -/
  cfg : Config
  /-- `CTRL.IRQ_EN` (R24) -/
  irqEn : Bool
  /-- `STATUS.DONE` (R27) -/
  done : Bool
  /-- `STATUS.ERR` (R28) -/
  err : Bool
  /-- `STATUS.PRIME` (R29) -/
  prime : Bool
  /-- `STATUS.JSYM` (R30) -/
  jsym : BitVec 2
  /-- `STATUS.OVR` (R31) -/
  ovr : Bool
  /-- `STATUS.ERRCODE` (R28) -/
  errcode : BitVec 4
  /-- The read value of `CMD` (R33) -/
  cmd : Word
  /-- `BF_WSIZE[15:0]` (R34) -/
  bfWsize : BitVec 16
  /-- `BF_SEED` (R35) -/
  bfSeed : Word
  /-- `XS`, read as `BF_STATE` (R36) -/
  xs : Word
  /-- `ROUNDS[15:0]` (R37) -/
  rounds : BitVec 16
  /-- `A` (R38) -/
  regA : Wide
  /-- `E` (R38) -/
  regE : Wide
  /-- `N` (R38) -/
  regN : Wide
  /-- `R` (R39) -/
  regR : Wide
  /-- `phase` (R42) -/
  phase : Phase
  /-- `cur`, the accepted command word, or empty (R42) -/
  cur : Option Word
  /-- `r`, the index of the current witness round (R42); "empty" at reset is held as 0 (log 20) -/
  round : Nat
  /-- `acc`, the outcomes of the rounds so far (R42) -/
  acc : List Bool
  /-- `pend`, the commit set (R42) -/
  pend : CommitSet
  /-- The value `Draw` took and the sequencer has not used yet (60_exceptions.md R262; log 7). -/
  ans : Option Nat
  /-- The `rst_n` pin, `true` when released (R44, R291). -/
  rstN : Bool
  /-- The response port: the response of the last transaction (R61; log 6). -/
  resp : Option Response
  /-- The host's remaining statements, in issue order (R12, R74; log 2). -/
  script : List HostStmt
  /-- Who moves next; the engine when empty (R12; log 2). -/
  turns : List Turn
  deriving DecidableEq, Repr

/-- The reasons a step stops. -/
inductive Fault where
  /-- Raised by a host turn with a statement left in the script while `rst_n = 0`: the spec says
  the host must not start a transaction then and a model gives it no step (R291). Safe: the
  model stops where the hardware's behaviour is not given (log 5). -/
  | hostStepDuringReset
  deriving DecidableEq, Repr

/-- The reasons an instruction has no meaning. -/
inductive Refusal where
  /-- Raised by an arm of `exec` whose instruction has no meaning yet; no arm raises it. Safe. -/
  | notModelled (mnemonic : String)
  deriving DecidableEq, Repr

/-- The block after reset, at a given configuration, with no host statement and no turn waiting
(10_state.md R45). R45's empty `r` is held as the index 0: the model's reading (DESIGN CHOICE,
log 20), since 0 is what acceptance writes before any command reads it (40_control.md R122). -/
def State.resetWith (c : Config) : State where
  cfg := c
  irqEn := false
  done := false
  err := false
  prime := false
  jsym := 0
  ovr := false
  errcode := 0
  cmd := 0
  bfWsize := 0
  bfSeed := Config.seedDefault
  xs := Config.seedDefault
  rounds := 0
  regA := List.replicate c.nwords 0
  regE := List.replicate c.nwords 0
  regN := List.replicate c.nwords 0
  regR := List.replicate c.nwords 0
  phase := .idle
  cur := none
  round := 0
  acc := []
  pend := {}
  ans := none
  rstN := true
  resp := none
  script := []
  turns := []

/-- The machine right after reset, in the reference configuration (R45, R5). -/
def State.reset : State := State.resetWith Config.reference

end Sys2Proof.Machine
end

