-- ==== Sys2Proof/Machine/Flags.lean ====
section
/-! DEFINITION. The `STATUS` word and its computed bits, the codes of its fields, and the output
ports computed from them (10_state.md R25–R32, 42_powmod.md R181, 60_exceptions.md R250, R261,
R270). -/

namespace Sys2Proof.Machine

open Sys2Proof

/-- `STATUS.BUSY = (phase != IDLE)` (R26, R42). -/
def State.busy (s : State) : Bool := s.phase != .idle

/-- `STATUS.WREQ = (phase == WAIT_WITNESS)`, the mirror of the port `wit_req` (R32, R42). -/
def State.wreq (s : State) : Bool := s.phase == .waitWitness

/-- The level interrupt, `irq = STATUS.DONE and CTRL.IRQ_EN` (R270). -/
def State.irq (s : State) : Bool := s.done && s.irqEn

/-- The code of an error (R250). -/
def ErrCode.code : ErrCode → BitVec 4
  | .illegalCommand => 1
  | .invalidWidth => 2
  | .invalidWitnessCount => 3
  | .invalidCandidate => 4
  | .invalidModulus => 5
  | .witnessRange => 6

/-- The value of a Jacobi symbol, 0, +1 or -1 (42_powmod.md R180; 00_scope.md R9). -/
inductive JSymbol where
  | zero
  | plus
  | minus
  deriving DecidableEq, Repr

/-- The integer a symbol stands for (R180). -/
def JSymbol.toInt : JSymbol → Int
  | .zero => 0
  | .plus => 1
  | .minus => -1

/-- The encoding of a symbol in `STATUS.JSYM` (R181). -/
def JSymbol.enc : JSymbol → BitVec 2
  | .zero => 0b00
  | .plus => 0b01
  | .minus => 0b11

/-- The `STATUS` word (R25): reserved, `ERRCODE`, `WREQ`, `OVR`, `JSYM`, `PRIME`, `ERR`, `DONE`,
`BUSY` from the most significant bit. -/
def State.statusWord (s : State) : Word :=
  (0 : BitVec 20) ++ s.errcode ++ BitVec.ofBool s.wreq ++ BitVec.ofBool s.ovr ++ s.jsym ++
    BitVec.ofBool s.prime ++ BitVec.ofBool s.err ++ BitVec.ofBool s.done ++ BitVec.ofBool s.busy

/-- The `CTRL` word: `IRQ_EN` in bit 0, everything else reads 0 (R24). -/
def State.ctrlWord (s : State) : Word := (0 : BitVec 31) ++ BitVec.ofBool s.irqEn

end Sys2Proof.Machine
end

