-- ==== Sys2Proof/Machine/Operands.lean ====
section
/-! DEFINITION. The operands of the commands: the values of the wide registers, their words, and
the witness port's bound (10_state.md R38, 30_encoding.md R100, 60_exceptions.md R261). -/

namespace Sys2Proof.Machine

open Sys2Proof

/-- `val(X)`, the sum of the words, word `i` shifted by `32*i` (R38). -/
def wideVal : Wide → Nat
  | [] => 0
  | w :: ws => w.toNat + 2 ^ 32 * wideVal ws

/-- `zext_NBITS(v)` as `nwords` words (00_scope.md R9, R38). -/
def wideOfNat : Nat → Nat → Wide
  | 0, _ => []
  | n + 1, v => BitVec.ofNat 32 v :: wideOfNat n (v / 2 ^ 32)

/-- The canonical form of a wide register: exactly `nwords` words. -/
abbrev Wide.wf (nwords : Nat) (x : Wide) : Prop := x.length = nwords

/-- The canonical form of the block's storage: the four wide registers, the only storage of the
register space that is held as a list (20_memory.md R60, R66; log 10). -/
abbrev Memory.wf (s : State) : Prop :=
  Wide.wf s.cfg.nwords s.regA ∧ Wide.wf s.cfg.nwords s.regE ∧ Wide.wf s.cfg.nwords s.regN ∧
    Wide.wf s.cfg.nwords s.regR

/-- `val(A)` -/
def State.valA (s : State) : Nat := wideVal s.regA

/-- `val(E)` -/
def State.valE (s : State) : Nat := wideVal s.regE

/-- `val(N)` -/
def State.valN (s : State) : Nat := wideVal s.regN

/-- The value the port `wit_data` carries: its `NBITS` wires (R44, R262). -/
def portValue (c : Config) (a : Nat) : Nat := a % 2 ^ c.nbits

/-- The port `wit_bound`: `val(N) - 2` while a request is up, not valid otherwise (R44, R261). -/
def State.witBound (s : State) : Option Nat := if s.wreq then some (s.valN - 2) else none

end Sys2Proof.Machine
end

