-- ==== Sys2Proof/Machine/Ops.lean ====
section
/-! DEFINITION. The shared operations: reset, acceptance, the commit, the error commit, the
witness request, and the register space with its reads and writes (40_control.md, 20_memory.md,
60_exceptions.md, 70_reset_and_hazards.md). -/

namespace Sys2Proof.Machine

open Sys2Proof

/-! ## Lifecycle -/

/-- The reset action on the block (R290): every piece of the block's state at its reset value (`r` at
0, log 20); the configuration and the agents outside the block stay. -/
def resetBlock (s : State) : State :=
  { State.resetWith s.cfg with
    rstN := s.rstN, resp := s.resp, script := s.script, turns := s.turns }

/-- `accept(c)` (R122). -/
def accept (c : Word) (s : State) : State :=
  { s with
    phase := .run, cur := some c, cmd := c, done := false
    round := 0, acc := [], pend := {}, ans := none }

/-- The commit of the set in `pend` (R124): every write of `pend`, `ERR` and `ERRCODE`, `DONE`, and
`phase <- IDLE` (so `BUSY` reads 0). `none` is success. -/
def commit (outcome : Option ErrCode) (s : State) : State :=
  { s with
    regR := s.pend.r.getD s.regR
    xs := s.pend.xs.getD s.xs
    prime := s.pend.prime.getD s.prime
    jsym := s.pend.jsym.getD s.jsym
    rounds := s.pend.rounds.getD s.rounds
    err := outcome.isSome
    errcode := (outcome.map ErrCode.code).getD 0
    done := true
    phase := .idle }

/-- A normal end of a command: `pend <- p; return` (R124, R130). -/
def succeed (p : CommitSet) (s : State) : State := commit none { s with pend := p }

/-- The error commit set (R253). `rounds` is present only for a legal test. -/
def errorSet (rounds : Option (BitVec 16)) : CommitSet :=
  { prime := some false, jsym := some 0, rounds := rounds }

/-- `raise Error(code)`, the block's way of taking an error (R130, R253, R257): the error commit. -/
def raise (code : ErrCode) (rounds : Option (BitVec 16)) (s : State) : State :=
  commit (some code) { s with pend := errorSet rounds }

/-- The end of a command without draws: its commit set and success, or its error (R130). -/
def finish (res : Except ErrCode CommitSet) (s : State) : State :=
  match res with
  | .ok p => succeed p s
  | .error code => raise code none s

/-- The request of `Draw(bound)` (60_exceptions.md R261); `wit_req` and `wit_bound` are views of the
phase and of `N`. -/
def requestWitness (s : State) : State := { s with phase := .waitWitness }

/-- The answer of `Draw` (R262): the value is taken, the request falls and the command runs on. An
answer without a request, or during reset, is ignored (R264, R291, R304). -/
def answerWitness (a : Nat) (s : State) : State :=
  if s.rstN ∧ s.phase = .waitWitness then
    { s with ans := some (portValue s.cfg a), phase := .run }
  else s

/-! ## The register space -/

/-- The wide windows (R66). -/
inductive WideReg where
  | a
  | e
  | n
  | r
  deriving DecidableEq, Repr

/-- What a mapped word of the register space reaches (R20, R65). -/
inductive Reg where
  | id
  | param
  | ctrl
  | status
  | cmd
  | bfWsize
  | bfSeed
  | bfState
  | rounds
  | wide (x : WideReg) (i : Nat)
  deriving DecidableEq, Repr

/-- The base of a window (R66). -/
def WideReg.base : WideReg → Nat
  | .a => 0x1000
  | .e => 0x2000
  | .n => 0x3000
  | .r => 0x4000

/-- The byte offset of a register (R20). -/
def Reg.offset : Reg → BitVec 16
  | .id => 0x000
  | .param => 0x004
  | .ctrl => 0x008
  | .status => 0x00C
  | .cmd => 0x010
  | .bfWsize => 0x014
  | .bfSeed => 0x018
  | .bfState => 0x01C
  | .rounds => 0x020
  | .wide x i => BitVec.ofNat 16 (x.base + 4 * i)

/-- The register at word index `j` of the control page, offsets 0x0000–0x0023 (R20, R65). -/
def controlReg : Nat → Option Reg
  | 0 => some .id
  | 1 => some .param
  | 2 => some .ctrl
  | 3 => some .status
  | 4 => some .cmd
  | 5 => some .bfWsize
  | 6 => some .bfSeed
  | 7 => some .bfState
  | 8 => some .rounds
  | _ => none

/-- Word `i` of a window, unmapped from `NWORDS` on (R66). -/
def windowReg (c : Config) (x : WideReg) (i : Nat) : Option Reg :=
  if i < c.nwords then some (.wide x i) else none

/-- The register an offset reaches: none when it is misaligned or unmapped (R63, R65–R67). -/
def regAt (c : Config) (off : BitVec 16) : Option Reg :=
  if off.toNat % 4 ≠ 0 then none
  else match off.toNat / 0x1000 with
    | 0 => controlReg (off.toNat / 4)
    | 1 => windowReg c .a (off.toNat % 0x1000 / 4)
    | 2 => windowReg c .e (off.toNat % 0x1000 / 4)
    | 3 => windowReg c .n (off.toNat % 0x1000 / 4)
    | 4 => windowReg c .r (off.toNat % 0x1000 / 4)
    | _ => none

/-- The contents of a wide register. -/
def State.wide (s : State) : WideReg → Wide
  | .a => s.regA
  | .e => s.regE
  | .n => s.regN
  | .r => s.regR

/-- The current value of a register, reserved and write-only bits 0 (R20–R39, R70). -/
def readReg (s : State) : Reg → Word
  | .id => Config.idValue
  | .param => BitVec.ofNat 16 s.cfg.wmax ++ BitVec.ofNat 16 s.cfg.nwords
  | .ctrl => s.ctrlWord
  | .status => s.statusWord
  | .cmd => s.cmd
  | .bfWsize => (0 : BitVec 16) ++ s.bfWsize
  | .bfSeed => s.bfSeed
  | .bfState => s.xs
  | .rounds => (0 : BitVec 16) ++ s.rounds
  | .wide x i => (s.wide x).getD i 0

/-- The register a transaction of `bytes` bytes at `off` reaches, none when it ends with
`BUS_ERROR` (R63, R67, R70, R71). -/
def busTarget (c : Config) (off : BitVec 16) (bytes : Nat) : Option Reg :=
  if bytes = 4 then regAt c off else none

/-- `BusRead(off, bytes)` (R70). -/
def busRead (s : State) (off : BitVec 16) (bytes : Nat) : Response :=
  match busTarget s.cfg off bytes with
  | some r => .data (readReg s r)
  | none => .busError

/-- The offset of the word that holds a byte offset: `4*j` for `4*j + k` (R62). -/
def wordOffset (off : BitVec 16) : BitVec 16 := BitVec.ofNat 16 (off.toNat / 4 * 4)

/-- The byte of the register space at a byte offset: lane `off mod 4` of its word, none when the
word is unmapped (R62). No transaction reaches a lane alone (R63). -/
def spaceByte (s : State) (off : BitVec 16) : Option Byte :=
  match regAt s.cfg (wordOffset off) with
  | some r => some ((readReg s r).extractLsb' (8 * (off.toNat % 4)) 8)
  | none => none

/-- A write dropped by the busy lock: only `OVR <- 1` (R121, R123). -/
def dropWrite (s : State) : State := { s with ovr := true }

/-- A write to `CTRL` (R129). -/
def writeCtrl (v : Word) (s : State) : State :=
  let s' := { s with irqEn := v.getLsbD 0 }
  if v.getLsbD 31 then resetBlock s' else s'

/-- A write to `STATUS` (R128): `DONE` and `OVR` are cleared by a 1. -/
def writeStatus (v : Word) (s : State) : State :=
  { s with done := s.done && !v.getLsbD 1, ovr := s.ovr && !v.getLsbD 6 }

/-- The busy lock: a write is dropped while busy, else it has the given effect (R71, R121, R123). -/
def unlessBusy (s written : State) : State := if s.busy then dropWrite s else written

/-- What a write does to the register it reaches (R71). -/
def writeReg (r : Reg) (v : Word) (s : State) : State :=
  match r with
  | .id => s
  | .param => s
  | .ctrl => writeCtrl v s
  | .status => writeStatus v s
  | .cmd => unlessBusy s (accept v s)
  | .bfWsize => unlessBusy s { s with bfWsize := v.extractLsb' 0 16 }
  | .bfSeed => unlessBusy s { s with bfSeed := v }
  | .bfState => s
  | .rounds => s
  | .wide .a i => unlessBusy s { s with regA := s.regA.set i v }
  | .wide .e i => unlessBusy s { s with regE := s.regE.set i v }
  | .wide .n i => unlessBusy s { s with regN := s.regN.set i v }
  | .wide .r _ => s

/-- `BusWrite(off, bytes, v)` (R71): OK unless misaligned, unmapped or not 32 bits wide. -/
def busWrite (off : BitVec 16) (bytes : Nat) (v : Word) (s : State) : State :=
  match busTarget s.cfg off bytes with
  | some r => { writeReg r v s with resp := some .ok }
  | none => { s with resp := some .busError }

end Sys2Proof.Machine
end

