-- ==== Sys2Proof/Machine/BitFolder.lean ====
section
/-! DEFINITION. The BitFolder: the xorshift register, the LCM fold and the XOR reduce, and its
commands (41_bitfolder.md R140–R149). -/

namespace Sys2Proof.Machine

open Sys2Proof

/-- `xs_step(x) = (t2, t3)` (R142); 32-bit words drop what the left shifts push out. -/
def xsStep (x : Word) : Word × Word :=
  let t1 := x ^^^ (x <<< 13)
  let t2 := t1 ^^^ (t1 >>> 17)
  let t3 := t2 ^^^ (t2 <<< 5)
  (t2, t3)

/-- The word a block contributes (R143). -/
def sampled (sp : SamplePoint) (t : Word × Word) : Word :=
  match sp with
  | .t2 => t.1
  | .t3 => t.2

/-- `blocks = W div gcd(W, 32)` (R144). -/
def foldBlocks (w : Nat) : Nat := w / Nat.gcd w 32

/-- `chunks = 32 div gcd(W, 32)` (R144). -/
def foldChunks (w : Nat) : Nat := 32 / Nat.gcd w 32

/-- The block loop of R145: `(S, x)` after the given number of further blocks. -/
def foldStream (sp : SamplePoint) : Nat → Word → Nat → Nat × Word
  | 0, x, acc => (acc, x)
  | b + 1, x, acc =>
    foldStream sp b (xsStep x).2 ((acc <<< 32) ||| (sampled sp (xsStep x)).toNat)

/-- Chunk `j` of the `chunks` chunks of `w` bits, counted from the left (R145). -/
def chunkAt (w chunks acc j : Nat) : Nat := (acc >>> (w * (chunks - 1 - j))) &&& (2 ^ w - 1)

/-- The XOR reduce: the XOR of the first `j` chunks (R145). -/
def xorReduce (w chunks acc : Nat) : Nat → Nat
  | 0 => 0
  | j + 1 => xorReduce w chunks acc j ^^^ chunkAt w chunks acc j

/-- The output value `V` and the next `XS` of one `BF_NEXT` (R145). -/
def bfOutput (sp : SamplePoint) (w : Nat) (x : Word) : Nat × Word :=
  let p := foldStream sp (foldBlocks w) x 0
  (xorReduce w (foldChunks w) p.1 (foldChunks w), p.2)

/-- `BF_INIT` (R140): the seed goes into `XS`. -/
def bfInitRun (s : State) : Except ErrCode CommitSet := .ok { xs := some s.bfSeed }

/-- `BF_NEXT(SP)` (R145): the width check, then the fold into `R` and the next `XS`. -/
def bfNextRun (sp : SamplePoint) (s : State) : Except ErrCode CommitSet :=
  if s.bfWsize.toNat = 0 ∨ s.cfg.wmax < s.bfWsize.toNat then .error .invalidWidth
  else
    .ok
      { r := some (wideOfNat s.cfg.nwords (bfOutput sp s.bfWsize.toNat s.xs).1)
        xs := some (bfOutput sp s.bfWsize.toNat s.xs).2 }

/-- `BF_INIT` (R140). -/
def execBfInit (s : State) : Host.Outcome State Fault Refusal := .next (finish (bfInitRun s) s)

/-- `BF_NEXT.T2` (R145, `SP = 0`). -/
def execBfNextT2 (s : State) : Host.Outcome State Fault Refusal :=
  .next (finish (bfNextRun .t2 s) s)

/-- `BF_NEXT.T3` (R145, `SP = 1`). -/
def execBfNextT3 (s : State) : Host.Outcome State Fault Refusal :=
  .next (finish (bfNextRun .t3 s) s)

end Sys2Proof.Machine
end

