-- ==== Sys2Proof/Machine/Control.lean ====
section
/-! DEFINITION. The control family: NOP (40_control.md R127) and the end of an illegal word (60_exceptions.md R251). -/

namespace Sys2Proof.Machine

open Sys2Proof

/-- `NOP` (R127): an empty commit set, success. -/
def nopRun : Except ErrCode CommitSet := .ok {}

/-- `NOP` (R127). -/
def execNop (s : State) : Host.Outcome State Fault Refusal := .next (finish nopRun s)

/-- An illegal word: `ILLEGAL_COMMAND` before anything else, no result changed (R98, R251). -/
def runIllegal (s : State) : State := raise .illegalCommand none s

end Sys2Proof.Machine
end

