-- ==== Sys2Proof/Machine/PowMod.lean ====
section
/-! DEFINITION. Modular exponentiation and the Jacobi symbol, and their commands (42_powmod.md
R170–R183). The algorithms are not architectural (R173); log 11. -/

namespace Sys2Proof.Machine

open Sys2Proof

/-- Square-and-multiply over the bits of the exponent, least significant first; the first
argument bounds the number of bits. -/
def powmodBits : Nat → Nat → Nat → Nat → Nat
  | 0, _, _, n => 1 % n
  | f + 1, b, e, n =>
    if e = 0 then 1 % n
    else if e % 2 = 1 then b * powmodBits f (b * b % n) (e / 2) n % n
    else powmodBits f (b * b % n) (e / 2) n

/-- `powmod(a, e, n) = pow(a, e) mod n` for `n >= 1` (R172). -/
def powmod (a e n : Nat) : Nat := powmodBits (Nat.log2 e + 1) (a % n) e n

/-- `POWMOD` (R170): the modulus check, then the power into `R`. -/
def powmodRun (s : State) : Except ErrCode CommitSet :=
  if s.valN = 0 then .error .invalidModulus
  else .ok { r := some (wideOfNat s.cfg.nwords (powmod s.valA s.valE s.valN)) }

/-- `POWMOD` (R170). -/
def execPowmod (s : State) : Host.Outcome State Fault Refusal := .next (finish (powmodRun s) s)

/-- `t = -t` (R180). -/
def JSymbol.neg : JSymbol → JSymbol
  | .zero => .zero
  | .plus => .minus
  | .minus => .plus

/-- `j mod n`: 0, `1 mod n` or `n - 1` (R181). -/
def JSymbol.modN (j : JSymbol) (n : Nat) : Nat :=
  match j with
  | .zero => 0
  | .plus => 1 % n
  | .minus => n - 1

/-- The loops of R180 as one loop: an even `a` is halved, an odd `a` is exchanged with `n` and the
new `a` reduced. The first argument bounds the number of passes. -/
def jacobiLoop : Nat → Nat → Nat → JSymbol → JSymbol
  | 0, _, n, t => if n = 1 then t else .zero
  | f + 1, a, n, t =>
    if a = 0 then (if n = 1 then t else .zero)
    else if a % 2 = 0 then
      jacobiLoop f (a / 2) n (if n % 8 = 3 ∨ n % 8 = 5 then t.neg else t)
    else jacobiLoop f (n % a) a (if a % 4 = 3 ∧ n % 4 = 3 then t.neg else t)

/-- `jacobi(a, n)` for odd `n >= 1` (R180). -/
def jacobi (a n : Nat) : JSymbol := jacobiLoop (Nat.log2 (a % n * n) + 1) (a % n) n .plus

/-- `JACOBI` (R182): the modulus check, then the symbol into `R` and `JSYM`. -/
def jacobiRun (s : State) : Except ErrCode CommitSet :=
  if s.valN = 0 ∨ s.valN % 2 = 0 then .error .invalidModulus
  else
    .ok
      { r := some (wideOfNat s.cfg.nwords ((jacobi s.valA s.valN).modN s.valN))
        jsym := some (jacobi s.valA s.valN).enc }

/-- `JACOBI` (R182). -/
def execJacobi (s : State) : Host.Outcome State Fault Refusal := .next (finish (jacobiRun s) s)

end Sys2Proof.Machine
end

