-- ==== Sys2Proof/Machine/MillerRabin.lean ====
section
/-! DEFINITION. The Miller–Rabin witness test (43_miller_rabin.md R200–R208), and the start that it
shares with Solovay–Strassen (R200 and R230 up to the first draw). -/

namespace Sys2Proof.Machine

open Sys2Proof

/-- The edge policy `edge(n)` for `n >= 1` (R201, R231). -/
def edge (n : Nat) : Option Bool :=
  if n = 1 then some false
  else if n = 2 then some true
  else if n = 3 then some true
  else if n % 2 = 0 then some false
  else none

/-- A test before its first answer: the checks of R252 in their order, the edge policy, then the
first request (R200, R230). -/
def testStart (k : Nat) (s : State) : State :=
  if k = 0 then raise .invalidWitnessCount (some 0) s
  else if s.valN = 0 then raise .invalidCandidate (some 0) s
  else match edge s.valN with
    | some b => succeed { prime := some b, rounds := some 0 } s
    | none => requestWitness s

/-- An answer `Draw` refuses: `a < 2` or `a > n - 2` (60_exceptions.md R262). -/
abbrev WitnessOut (n a : Nat) : Prop := a < 2 ∨ n - 2 < a

/-- The powers of two of `x`, at most the given number: `x = pow(2, s) * m` (R202). -/
def splitTwos : Nat → Nat → Nat × Nat
  | 0, x => (0, x)
  | f + 1, x =>
    if x % 2 = 0 then ((splitTwos f (x / 2)).1 + 1, (splitTwos f (x / 2)).2) else (0, x)

/-- `(s, m)` with `n - 1 = pow(2, s) * m`, `m` odd (R202). -/
def decompose (n : Nat) : Nat × Nat := splitTwos (Nat.log2 (n - 1)) (n - 1)

/-- The squaring loop of R203, over the given number of further squarings of `x`. -/
def mrSquarings (n : Nat) : Nat → Nat → Bool
  | 0, _ => false
  | i + 1, x =>
    if powmod x 2 n = n - 1 then true else mrSquarings n i (powmod x 2 n)

/-- `mr_round(n, a)` (R203). -/
def mrRound (n a : Nat) : Bool :=
  if powmod a (decompose n).2 n = 1 ∨ powmod a (decompose n).2 n = n - 1 then true
  else mrSquarings n ((decompose n).1 - 1) (powmod a (decompose n).2 n)

/-- The verdict after the last round (R204–R206). -/
def verdict (pol : Policy) (acc : List Bool) : Bool :=
  match pol with
  | .s => true
  | .ca => acc.all id
  | .co => acc.any id

/-- The round of `MR_TEST` for the answer `a` (the body of the loop of R200). -/
def mrAnswer (pol : Policy) (k a : Nat) (s : State) : State :=
  if WitnessOut s.valN a then
    raise .witnessRange (some (BitVec.ofNat 16 s.round)) s
  else if pol = .s ∧ mrRound s.valN a = false then
    succeed { prime := some false, rounds := some (BitVec.ofNat 16 (s.round + 1)) } s
  else if s.round + 1 < k then
    requestWitness { s with round := s.round + 1, acc := s.acc ++ [mrRound s.valN a] }
  else
    succeed
      { prime := some (verdict pol (s.acc ++ [mrRound s.valN a]))
        rounds := some (BitVec.ofNat 16 k) }
      { s with acc := s.acc ++ [mrRound s.valN a] }

/-- One step of the sequencer on `MR_TEST(POL, K)` (R200): from the start, or from an answer that
`Draw` has taken. -/
def mrTest (pol : Policy) (k : Nat) (s : State) : State :=
  match s.ans with
  | none => testStart k s
  | some a => mrAnswer pol k a { s with ans := none }

/-- `MR_TEST.S` (R200, R204). -/
def execMrTestS (k : Nat) (s : State) : Host.Outcome State Fault Refusal := .next (mrTest .s k s)

/-- `MR_TEST.CA` (R200, R205). -/
def execMrTestCA (k : Nat) (s : State) : Host.Outcome State Fault Refusal := .next (mrTest .ca k s)

/-- `MR_TEST.CO` (R200, R206). -/
def execMrTestCO (k : Nat) (s : State) : Host.Outcome State Fault Refusal := .next (mrTest .co k s)

end Sys2Proof.Machine
end

