-- ==== Sys2Proof/Machine/SolovayStrassen.lean ====
section
/-! DEFINITION. The Solovay–Strassen witness test (44_solovay_strassen.md R230–R234). -/

namespace Sys2Proof.Machine

open Sys2Proof

/-- `ss_round(n, a)` (R232). -/
def ssRound (n a : Nat) : Bool :=
  if jacobi a n = .zero then false
  else decide (powmod a ((n - 1) / 2) n = (jacobi a n).modN n)

/-- The round of `SS_TEST` for the answer `a` (the body of the loop of R230). -/
def ssAnswer (k a : Nat) (s : State) : State :=
  if WitnessOut s.valN a then
    raise .witnessRange (some (BitVec.ofNat 16 s.round)) s
  else if ssRound s.valN a = false then
    succeed { prime := some false, rounds := some (BitVec.ofNat 16 (s.round + 1)) } s
  else if s.round + 1 < k then requestWitness { s with round := s.round + 1 }
  else succeed { prime := some true, rounds := some (BitVec.ofNat 16 k) } s

/-- One step of the sequencer on `SS_TEST(K)` (R230). -/
def ssTest (k : Nat) (s : State) : State :=
  match s.ans with
  | none => testStart k s
  | some a => ssAnswer k a { s with ans := none }

/-- `SS_TEST` (R230). -/
def execSsTest (k : Nat) (s : State) : Host.Outcome State Fault Refusal := .next (ssTest k s)

end Sys2Proof.Machine
end

