-- ==== Sys2Proof/Machine/Dispatch.lean ====
section
/-! DEFINITION. One step of the engine sequencer on an accepted command: the case of `run(c)` (40_control.md R130). -/

namespace Sys2Proof.Machine

open Sys2Proof

def exec (i : Instr) (s : State) : Host.Outcome State Fault Refusal :=
  match i with
  | .nop => Sys2Proof.Machine.execNop s
  | .bfInit => Sys2Proof.Machine.execBfInit s
  | .bfNextT2 => Sys2Proof.Machine.execBfNextT2 s
  | .bfNextT3 => Sys2Proof.Machine.execBfNextT3 s
  | .powmod => Sys2Proof.Machine.execPowmod s
  | .jacobi => Sys2Proof.Machine.execJacobi s
  | .mrTestS k => Sys2Proof.Machine.execMrTestS k s
  | .mrTestCA k => Sys2Proof.Machine.execMrTestCA k s
  | .mrTestCO k => Sys2Proof.Machine.execMrTestCO k s
  | .ssTest k => Sys2Proof.Machine.execSsTest k s

end Sys2Proof.Machine
end

