-- ==== Sys2Proof/Machine/Agents.lean ====
section
/-! DEFINITION. The turns of the four agents: the engine sequencer, the host, the witness source and
reset (00_scope.md R12). -/

namespace Sys2Proof.Machine

open Sys2Proof

/-- `run(cur)` for the accepted word (40_control.md R130). -/
def runWord (c : Word) (s : State) : Host.Outcome State Fault Refusal :=
  match decode c with
  | .ok i => exec i s
  | .error _ => .next (runIllegal s)

/-- A step of the engine sequencer (R126). It has nothing to do while `IDLE` or during reset, and
waits while `WAIT_WITNESS` (60_exceptions.md R261, 70_reset_and_hazards.md R300). -/
def engineTurn (s : State) : Host.Outcome State Fault Refusal :=
  if s.rstN then
    match s.phase, s.cur with
    | .run, some c => runWord c s
    | .run, none => .next s
    | .idle, _ => .next s
    | .waitWitness, _ => .next s
  else .next s

/-- One statement of the host's script (30_encoding.md R102, R103); `rest` is the script after it. -/
def hostStmt (st : HostStmt) (rest : List HostStmt) (s : State) : State :=
  match st with
  | .read off bytes => { s with script := rest, resp := some (busRead s off bytes) }
  | .write off bytes v => busWrite off bytes v { s with script := rest }
  | .wait =>
    { s with
      resp := some (busRead s Reg.status.offset 4)
      script := if s.statusWord.getLsbD 1 then rest else .wait :: rest }

/-- A turn of the host (00_scope.md R12, 20_memory.md R74). -/
def hostTurn (s : State) : Host.Outcome State Fault Refusal :=
  match s.script with
  | [] => .next s
  | st :: rest => if s.rstN then .next (hostStmt st rest s) else .fault .hostStepDuringReset

/-- The turn of one agent. -/
def takeTurn (t : Turn) (s : State) : Host.Outcome State Fault Refusal :=
  match t with
  | .host => hostTurn s
  | .engine => engineTurn s
  | .witness a => .next (answerWitness a s)
  | .rstLow => .next (resetBlock { s with rstN := false })
  | .rstHigh => .next { s with rstN := true }
  | .powerLoss => .next (resetBlock s)

end Sys2Proof.Machine
end

