-- ==== Sys2Proof/Machine/Step.lean ====
section
/-! DEFINITION. One step of the machine, and the state in which a given command word is the next to
run (00_scope.md R12, 40_control.md R120, R126). -/

namespace Sys2Proof.Machine

open Sys2Proof

/-- One step: the agent at the head of the schedule moves; the engine when the schedule is empty. -/
def step (s : State) : Host.Outcome State Fault Refusal :=
  match s.turns with
  | [] => engineTurn s
  | t :: ts => takeTurn t { s with turns := ts }

/-- The state in which the host has written the word to `CMD` and the engine has the next turn, so
that the next step runs that command (R120, R122; log 2). -/
def State.withFetchWord (s : State) (nbits w : Nat) : State :=
  { accept (BitVec.ofNat 32 (w % 2 ^ nbits)) s with rstN := true, turns := .engine :: s.turns }

end Sys2Proof.Machine
end

