-- ==== Sys2Proof/Machine/Run.lean ====
section
/-! DEFINITION. The whole command as one function of the state at acceptance, the command word and
the witness source's answers (00_scope.md R14). The step machine sequences it; that the two agree
is a statement, not a definition. -/

namespace Sys2Proof.Machine

open Sys2Proof

/-- How a command ends: its outcome, the commit set it writes and the number of draws it used
(R14). -/
structure RunResult where
  outcome : Option ErrCode
  pend : CommitSet
  used : Nat
  deriving DecidableEq, Repr

/-- A command that draws nothing. -/
def plainResult (res : Except ErrCode CommitSet) : RunResult :=
  match res with
  | .ok p => ⟨none, p, 0⟩
  | .error code => ⟨some code, errorSet none, 0⟩

/-- The rounds of a test from round `r` on, over the answers still to come (R200, R230): none when
the source does not answer any more. -/
def testRounds (pass : Nat → Bool) (pol : Policy) (n k : Nat) :
    List Nat → Nat → List Bool → Option RunResult
  | [], _, _ => none
  | a :: draws, r, acc =>
    if WitnessOut n a then
      some ⟨some .witnessRange, errorSet (some (BitVec.ofNat 16 r)), r + 1⟩
    else if pol = .s ∧ pass a = false then
      some ⟨none, { prime := some false, rounds := some (BitVec.ofNat 16 (r + 1)) }, r + 1⟩
    else if r + 1 < k then testRounds pass pol n k draws (r + 1) (acc ++ [pass a])
    else
      some ⟨none,
        { prime := some (verdict pol (acc ++ [pass a])), rounds := some (BitVec.ofNat 16 k) },
        r + 1⟩

/-- A whole test (R200; R230 is the case of policy `S` with the Solovay–Strassen round). -/
def testRun (pass : Nat → Bool) (pol : Policy) (n k : Nat) (draws : List Nat) :
    Option RunResult :=
  if k = 0 then some ⟨some .invalidWitnessCount, errorSet (some 0), 0⟩
  else if n = 0 then some ⟨some .invalidCandidate, errorSet (some 0), 0⟩
  else match edge n with
    | some b => some ⟨none, { prime := some b, rounds := some 0 }, 0⟩
    | none => testRounds pass pol n k draws 0 []

/-- A legal command (R130). -/
def runInstr (i : Instr) (s : State) (draws : List Nat) : Option RunResult :=
  match i with
  | .nop => some (plainResult nopRun)
  | .bfInit => some (plainResult (bfInitRun s))
  | .bfNextT2 => some (plainResult (bfNextRun .t2 s))
  | .bfNextT3 => some (plainResult (bfNextRun .t3 s))
  | .powmod => some (plainResult (powmodRun s))
  | .jacobi => some (plainResult (jacobiRun s))
  | .mrTestS k => testRun (mrRound s.valN) .s s.valN k draws
  | .mrTestCA k => testRun (mrRound s.valN) .ca s.valN k draws
  | .mrTestCO k => testRun (mrRound s.valN) .co s.valN k draws
  | .ssTest k => testRun (ssRound s.valN) .s s.valN k draws

/-- `run(state, cmd, draws)` (R14); none is a test whose source stops answering, a hang (R300). -/
def runCommand (s : State) (c : Word) (draws : List Nat) : Option RunResult :=
  match decode c with
  | .ok i => runInstr i s draws
  | .error _ => some ⟨some .illegalCommand, errorSet none, 0⟩

/-- The schedule in which the engine and the witness source alternate over the given answers. -/
def drawTurns (draws : List Nat) : List Turn :=
  .engine :: draws.flatMap fun a => [.witness a, .engine]

end Sys2Proof.Machine
end

