-- ==== Sys2Proof/Machine/Script.lean ====
section
/-! DEFINITION. The assembler's commands and the host script with its pseudo-instructions
(30_encoding.md R101–R103), and the values a run of a script shows. Notation only: the machine runs
the bus statements they expand to. -/

namespace Sys2Proof.Machine

open Sys2Proof

/-! ## Commands as text (R101) -/

/-- The value of a digit character in a base up to 16. -/
def digitValue (base : Nat) (c : Char) : Option Nat :=
  let v :=
    if '0' ≤ c ∧ c ≤ '9' then c.toNat - '0'.toNat
    else if 'a' ≤ c ∧ c ≤ 'f' then c.toNat - 'a'.toNat + 10
    else if 'A' ≤ c ∧ c ≤ 'F' then c.toNat - 'A'.toNat + 10
    else 16
  if v < base then some v else none

/-- The digits of a numeral after a value read so far; `_` only groups digits (00_scope.md R9). -/
def parseDigits (base : Nat) : List Char → Nat → Option Nat
  | [], v => some v
  | '_' :: cs, v => parseDigits base cs v
  | c :: cs, v => (digitValue base c).bind fun d => parseDigits base cs (v * base + d)

/-- A decimal or `0x` hexadecimal integer, starting with a digit. -/
def parseNumeral : List Char → Option Nat
  | '0' :: 'x' :: c :: cs => (digitValue 16 c).bind (parseDigits 16 cs)
  | c :: cs => (digitValue 10 c).bind (parseDigits 10 cs)
  | [] => none

/-- A count `k`; the assembler refuses any value outside 0..65535. -/
def parseCount (cs : List Char) : Option Nat :=
  (parseNumeral cs).bind fun k => if countFits k then some k else none

/-- The tokens of a line, separated by spaces; the second argument is the token being read. -/
def tokens : List Char → List Char → List (List Char)
  | [], cur => if cur = [] then [] else [cur]
  | c :: cs, cur =>
    if c = ' ' then (if cur = [] then tokens cs [] else cur :: tokens cs [])
    else tokens cs (cur ++ [c])

/-- The forms without a count. No suffix on `BF_NEXT` is `.T2`. -/
def plainMnemonic (m : List Char) : Option Instr :=
  if m = "NOP".toList then some .nop
  else if m = "BF_INIT".toList then some .bfInit
  else if m = "BF_NEXT".toList then some .bfNextT2
  else if m = "BF_NEXT.T2".toList then some .bfNextT2
  else if m = "BF_NEXT.T3".toList then some .bfNextT3
  else if m = "POWMOD".toList then some .powmod
  else if m = "JACOBI".toList then some .jacobi
  else none

/-- The forms with a count. No suffix on `MR_TEST` is `.S`. -/
def testMnemonic (m : List Char) (k : Nat) : Option Instr :=
  if m = "MR_TEST".toList then some (.mrTestS k)
  else if m = "MR_TEST.S".toList then some (.mrTestS k)
  else if m = "MR_TEST.CA".toList then some (.mrTestCA k)
  else if m = "MR_TEST.CO".toList then some (.mrTestCO k)
  else if m = "SS_TEST".toList then some (.ssTest k)
  else none

/-- The default count of the assembler (R101, 00_scope.md R7). -/
def defaultCount : Nat := 10

/-- A command line: a mnemonic and, for the tests, an optional count (R101). -/
def parseCommand (line : List Char) : Option Instr :=
  match tokens line [] with
  | [m] => (plainMnemonic m).or (testMnemonic m defaultCount)
  | [m, k] => (parseCount k).bind (testMnemonic m)
  | _ => none

/-- The assembled word of a command line (R101). -/
def assemble (line : List Char) : Option Word := (parseCommand line).map encode

/-! ## Host-script statements (R102, R103) -/

/-- A statement of a host script. `wr` and `rd` are one bus transaction each; the others are the
pseudo-instructions. -/
inductive ScriptStmt where
  | wr (r : Reg) (v : Word)
  | rd (r : Reg)
  | wrw (x : WideReg) (v : Nat)
  | rdw (x : WideReg)
  | issue (i : Instr)
  | wait
  | ack
  | run (i : Instr)
  deriving DecidableEq, Repr

/-- `WR <reg>, <v>` (R102). -/
def wrStmt (r : Reg) (v : Word) : HostStmt := .write r.offset 4 v

/-- `RD <reg>` (R102). -/
def rdStmt (r : Reg) : HostStmt := .read r.offset 4

/-- `WRW X, v`: every word of `X`, word `i` getting `(v >> (32*i)) and M32` (R103). -/
def wrwStmts (c : Config) (x : WideReg) (v : Nat) : List HostStmt :=
  (List.range c.nwords).map fun i => wrStmt (.wide x i) (BitVec.ofNat 32 (v >>> (32 * i)))

/-- `RDW X`: every word of `X` (R103); `scriptValue` gives its value. -/
def rdwStmts (c : Config) (x : WideReg) : List HostStmt :=
  (List.range c.nwords).map fun i => rdStmt (.wide x i)

/-- `ISSUE <command>` (R103). -/
def issueStmt (i : Instr) : HostStmt := wrStmt .cmd (encode i)

/-- `ACK` (R103). -/
def ackStmt : HostStmt := wrStmt .status 0x00000002

/-- `<reg>` names a register of the table of 10_state.md R20: `X[i]` only for `i < NWORDS`. -/
def Reg.named (c : Config) : Reg → Bool
  | .id => true
  | .param => true
  | .ctrl => true
  | .status => true
  | .cmd => true
  | .bfWsize => true
  | .bfSeed => true
  | .bfState => true
  | .rounds => true
  | .wide _ i => decide (i < c.nwords)

/-- The expansion of a statement (R102, R103); none where the script is refused: a value that does
not fit the wide register, a count the assembler refuses, or a `WR` or `RD` of `X[i]` with
`i >= NWORDS`. The last is the model's choice (DESIGN CHOICE, log 21): R102 takes its names from
10_state.md R20, which has no such word, and does not say what such a statement does. -/
def expandStmt (c : Config) : ScriptStmt → Option (List HostStmt)
  | .wr r v => if r.named c then some [wrStmt r v] else none
  | .rd r => if r.named c then some [rdStmt r] else none
  | .wrw x v => if v < 2 ^ c.nbits then some (wrwStmts c x v) else none
  | .rdw x => some (rdwStmts c x)
  | .issue i => if i.wf then some [issueStmt i] else none
  | .wait => some [.wait]
  | .ack => some [ackStmt]
  | .run i => if i.wf then some [issueStmt i, .wait] else none

/-- The expansion of a script. -/
def expandScript (c : Config) : List ScriptStmt → Option (List HostStmt)
  | [] => some []
  | st :: sts => (expandStmt c st).bind fun hs => (expandScript c sts).map (hs ++ ·)

/-! ## The values a script shows (R102, R103) -/

/-- The next step is a transaction of the host. -/
def State.hostTransacts (s : State) : Bool :=
  match s.turns, s.script with
  | .host :: _, _ :: _ => true
  | .host :: _, [] => false
  | .engine :: _, _ => false
  | .witness _ :: _, _ => false
  | .rstLow :: _, _ => false
  | .rstHigh :: _, _ => false
  | .powerLoss :: _, _ => false
  | [], _ => false

/-- The responses of the host's transactions in the next `k` steps, in order, whatever the other
agents do between them (20_memory.md R61, R74). -/
def transcript : Nat → State → List Response
  | 0, _ => []
  | k + 1, s =>
    match step s with
    | .next t => (if s.hostTransacts then t.resp.toList else []) ++ transcript k t
    | .fault _ => []
    | .refused _ => []

/-- `sum of word_i << (32*i)` over the words read, from word `i` on (R103); none when a response is
no word. -/
def wordSum (i : Nat) : List Response → Option Nat
  | [] => some 0
  | .data w :: rs => (wordSum (i + 1) rs).map fun v => w.toNat <<< (32 * i) + v
  | .ok :: _ => none
  | .busError :: _ => none

/-- The value a statement shows, from the responses of its expansion: the word read by `RD` (its
`-> v`, R102), the sum over the words read by `RDW` (R103); the other statements show none. -/
def scriptValue (st : ScriptStmt) (rs : List Response) : Option Nat :=
  match st with
  | .rd _ => wordSum 0 rs
  | .rdw _ => wordSum 0 rs
  | .wr _ _ => none
  | .wrw _ _ => none
  | .issue _ => none
  | .wait => none
  | .ack => none
  | .run _ => none

end Sys2Proof.Machine
end

