-- ==== Sys2Proof/Safety.lean ====
section
/-! DEFINITION. What claims speak about: the invariant that every step keeps, the safe outcomes, and
the tests among the commands. -/

namespace Sys2Proof

/-- The commands that draw witnesses (00_scope.md R14). -/
def Instr.isTest : Instr → Bool
  | .nop => false
  | .bfInit => false
  | .bfNextT2 => false
  | .bfNextT3 => false
  | .powmod => false
  | .jacobi => false
  | .mrTestS _ => true
  | .mrTestCA _ => true
  | .mrTestCO _ => true
  | .ssTest _ => true

namespace Machine

/-- A request may be up: the accepted command is a test, its count is not used up, and the
candidate is odd and at least 5 (60_exceptions.md R261). -/
structure State.Drawing (s : State) : Prop where
  command : ∃ i : Instr, decode s.cmd = .ok i ∧ i.isTest = true ∧ s.round < i.count
  odd : s.valN % 2 = 1
  large : 5 ≤ s.valN

/-- What holds of the machine at every step boundary. -/
structure State.Inv (s : State) : Prop where
  /-- the parameters are legal (R5, R6) -/
  cfgOk : s.cfg.Ok
  /-- the wide registers keep their canonical form (R38, R39) -/
  wfA : Wide.wf s.cfg.nwords s.regA
  wfE : Wide.wf s.cfg.nwords s.regE
  wfN : Wide.wf s.cfg.nwords s.regN
  wfR : Wide.wf s.cfg.nwords s.regR
  /-- `DONE` and `BUSY` are never both 1 (R27) -/
  doneIdle : s.done = true → s.busy = false
  /-- the reserved `JSYM` code is never produced (R30, I11) -/
  jsymLegal : s.jsym ≠ 0b10
  /-- error codes 7–15 are never written (R250, I10) -/
  codeLegal : s.errcode.toNat ≤ 6
  /-- `ERR` and `ERRCODE` agree (R28) -/
  errIffCode : s.err = true ↔ s.errcode ≠ 0
  /-- an error leaves no result behind (R253) -/
  errClears : s.err = true → s.prime = false ∧ s.jsym = 0
  /-- while busy, `cur` is the word `CMD` reads (R122) -/
  curIsCmd : s.busy = true → s.cur = some s.cmd
  /-- an answer is held only by a running command (R262) -/
  answerRuns : s.ans ≠ none → s.phase = .run
  /-- an answer came over the port's wires (R44) -/
  answerFits : ∀ a, s.ans = some a → a < 2 ^ s.cfg.nbits
  /-- requests are raised only by the tests, for odd candidates from 5 on (R261) -/
  waitDraws : s.phase = .waitWitness → s.Drawing
  answerDraws : s.ans ≠ none → s.Drawing
  /-- nothing of a commit set is built before the commit (R122, R125) -/
  pendEmpty : s.busy = true → s.pend = {}
  /-- a command that has drawn nothing yet stands at its acceptance (R122) -/
  freshStart : s.phase = .run → s.ans = none → s.round = 0 ∧ s.acc = []
  /-- while `rst_n = 0` the block holds the reset state (R291) -/
  heldInReset : s.rstN = false → s = resetBlock s

/-- The only thing that can stop a step: a host turn with a statement to perform while `rst_n = 0`
(70_reset_and_hazards.md R291; log 5). -/
abbrev State.HostMovesInReset (s : State) : Prop :=
  s.rstN = false ∧ s.turns.head? = some .host ∧ s.script ≠ []

/-- A step that goes on. -/
abbrev GoesOn (o : Host.Outcome State Fault Refusal) : Prop := ∃ t, o = .next t

end Machine

end Sys2Proof
end

