-- ==== Sys2Proof/Certificates/Slice0/Obligations.lean ====
section
/-! DEFINITION. The statements for the provers. Each docstring names the rule of spec/ it
formalises; OBLIGATIONS.json lists them. -/

open Sys2Proof Sys2Proof.Machine

/-! ## Reset -/

/-- 10_state.md §6 (R45), 00_scope.md §3 (R5, R6): every piece of state at its reset value, at every
legal configuration. That `State.reset` is the reference configuration is the model's choice
(log 1), and so is that the empty `r` is held as 0 (log 20). -/
def Obligations.ResetLeavesSpecValues : Prop :=
  State.reset.cfg.nbits = 4096 ∧ State.reset.cfg.wmax = 4096 ∧
  State.reset = State.resetWith State.reset.cfg ∧
  ∀ (c : Config) (s : State), c.Ok → s = State.resetWith c →
    s.cfg = c ∧
    readReg s .id = 0x504D4F44 ∧
    readReg s .param = (BitVec.ofNat 32 c.wmax <<< 16) ||| BitVec.ofNat 32 c.nwords ∧
    readReg s .ctrl = 0 ∧ readReg s .status = 0 ∧ readReg s .cmd = 0 ∧
    readReg s .bfWsize = 0 ∧ readReg s .bfSeed = 2463534242 ∧ readReg s .bfState = 0x92D68CA2 ∧
    readReg s .rounds = 0 ∧ (∀ x i, readReg s (.wide x i) = 0) ∧
    s.valA = 0 ∧ s.valE = 0 ∧ s.valN = 0 ∧ wideVal s.regR = 0 ∧
    s.phase = .idle ∧ s.cur = none ∧ s.round = 0 ∧ s.acc = [] ∧ s.pend = {} ∧
    s.irq = false ∧ s.wreq = false

/-- R292: a `CTRL` write with bit 31 set performs the reset in its own step, in every phase, and is
the only host statement that ends a witness wait. -/
def Obligations.SoftResetWriteResetsTheBlock : Prop :=
  (∀ (s : State) (v : Word), v.getLsbD 31 = true →
    busWrite 0x008 4 v s =
      { State.resetWith s.cfg with
        rstN := s.rstN, resp := some .ok, script := s.script, turns := s.turns }) ∧
  (∀ (st : HostStmt) (rest : List HostStmt) (s : State), s.phase = .waitWitness →
    (hostStmt st rest s).phase ≠ .waitWitness →
    ∃ v : Word, st = .write 0x008 4 v ∧ v.getLsbD 31 = true)

/-- 70_reset_and_hazards.md §1 (R290, R291, R285 of 60_exceptions.md): hardware reset and the loss
of power. That a host statement during reset stops the model is the model's choice (log 5). -/
def Obligations.HardwareResetHoldsTheResetState : Prop :=
  (∀ (s : State) (ts : List Turn), s.turns = .rstLow :: ts →
    step s = .next { State.resetWith s.cfg with
      rstN := false, resp := s.resp, script := s.script, turns := ts }) ∧
  (∀ (s : State) (ts : List Turn), s.turns = .powerLoss :: ts →
    step s = .next { State.resetWith s.cfg with
      rstN := s.rstN, resp := s.resp, script := s.script, turns := ts }) ∧
  (∀ (s : State) (ts : List Turn), s.turns = .rstHigh :: ts →
    step s = .next { s with rstN := true, turns := ts }) ∧
  (∀ (s : State) (ts : List Turn) (u : Turn), s.rstN = false → s.turns = u :: ts →
    (u = .engine ∨ ∃ a, u = .witness a) → step s = .next { s with turns := ts }) ∧
  (∀ (s : State) (ts : List Turn), s.rstN = false → s.turns = .host :: ts → s.script ≠ [] →
    step s = .fault .hostStepDuringReset)

/-! ## The register space -/

/-- R70: a host read returns the register's current value, reserved and write-only bits 0, or a
bus error, and changes nothing but the host's own side. What the value is, register by register
(R20, R24, R33–R38; `PARAM` is in IdentificationIsConstant, `STATUS` in StatusReadsItsFields):
word `i` of a window is bits `32*i + 31 : 32*i` of the wide register's value. -/
def Obligations.ReadReturnsCurrentValueOnly : Prop :=
  (∀ (s : State) (ts : List Turn) (off : BitVec 16) (bytes : Nat) (rest : List HostStmt),
    s.rstN = true → s.turns = .host :: ts → s.script = .read off bytes :: rest →
    (∀ r, bytes = 4 → regAt s.cfg off = some r →
      step s = .next { s with
        turns := ts, script := rest, resp := some (.data (readReg s r)) }) ∧
    (bytes ≠ 4 ∨ regAt s.cfg off = none →
      step s = .next { s with turns := ts, script := rest, resp := some .busError })) ∧
  (∀ s : State, readReg s .ctrl &&& 0xFFFFFFFE = 0 ∧ readReg s .status &&& 0xFFFFF000 = 0 ∧
    readReg s .bfWsize &&& 0xFFFF0000 = 0 ∧ readReg s .rounds &&& 0xFFFF0000 = 0) ∧
  (∀ s : State,
    readReg s .id = 0x504D4F44 ∧ readReg s .ctrl = (if s.irqEn then 1 else 0) ∧
    readReg s .status = s.statusWord ∧ readReg s .cmd = s.cmd ∧
    readReg s .bfWsize = s.bfWsize.setWidth 32 ∧ readReg s .bfSeed = s.bfSeed ∧
    readReg s .bfState = s.xs ∧ readReg s .rounds = s.rounds.setWidth 32) ∧
  (∀ (s : State) (i : Nat), i < s.cfg.nwords →
    readReg s (.wide .a i) = BitVec.ofNat 32 (s.valA >>> (32 * i)) ∧
    readReg s (.wide .e i) = BitVec.ofNat 32 (s.valE >>> (32 * i)) ∧
    readReg s (.wide .n i) = BitVec.ofNat 32 (s.valN >>> (32 * i)) ∧
    readReg s (.wide .r i) = BitVec.ofNat 32 (wideVal s.regR >>> (32 * i)))

/-- R66, with the control page of R20 and the unmapped ranges of R65: where every register sits. -/
def Obligations.WindowsReachTheirWords : Prop :=
  ∀ c : Config, c.Ok →
    (∀ (x : WideReg) (i : Nat), i < c.nwords →
      regAt c (BitVec.ofNat 16 (x.base + 4 * i)) = some (.wide x i)) ∧
    (∀ (x : WideReg) (i : Nat), c.nwords ≤ i → i < 1024 →
      regAt c (BitVec.ofNat 16 (x.base + 4 * i)) = none) ∧
    regAt c 0x000 = some .id ∧ regAt c 0x004 = some .param ∧ regAt c 0x008 = some .ctrl ∧
    regAt c 0x00C = some .status ∧ regAt c 0x010 = some .cmd ∧ regAt c 0x014 = some .bfWsize ∧
    regAt c 0x018 = some .bfSeed ∧ regAt c 0x01C = some .bfState ∧ regAt c 0x020 = some .rounds ∧
    (∀ off : BitVec 16, (0x24 ≤ off.toNat ∧ off.toNat < 0x1000) ∨ 0x5000 ≤ off.toNat →
      regAt c off = none)

/-- R63, R67, R72: a transaction of another width, misaligned or unmapped ends with `BUS_ERROR` and
changes nothing. -/
def Obligations.BusErrorChangesNothing : Prop :=
  ∀ (s : State) (off : BitVec 16) (bytes : Nat) (v : Word), s.cfg.Ok →
    (bytes ≠ 4 ∨ off.toNat % 4 ≠ 0 ∨ (0x24 ≤ off.toNat ∧ off.toNat < 0x1000) ∨
      0x5000 ≤ off.toNat ∨
      ∃ x : WideReg, x.base + 4 * s.cfg.nwords ≤ off.toNat ∧ off.toNat < x.base + 0x1000) →
    busRead s off bytes = .busError ∧
    busWrite off bytes v s = { s with resp := some .busError }

/-- R68: writes to read-only registers complete and change nothing; reserved bits ignore what is
written and read as 0. -/
def Obligations.ReadOnlyRegistersIgnoreWrites : Prop :=
  ∀ (s : State) (v : Word), s.cfg.Ok →
    (∀ off : BitVec 16, off = 0x000 ∨ off = 0x004 ∨ off = 0x01C ∨ off = 0x020 →
      busWrite off 4 v s = { s with resp := some .ok }) ∧
    (∀ i, i < s.cfg.nwords →
      busWrite (BitVec.ofNat 16 (0x4000 + 4 * i)) 4 v s = { s with resp := some .ok }) ∧
    (v.getLsbD 31 = false →
      busRead (busWrite 0x008 4 v s) 0x008 4 = .data (v &&& 0x00000001)) ∧
    (s.busy = false → busRead (busWrite 0x014 4 v s) 0x014 4 = .data (v &&& 0x0000FFFF)) ∧
    (∃ w : Word, busRead (busWrite 0x00C 4 v s) 0x00C 4 = .data w ∧ w &&& 0xFFFFF000 = 0)

/-- R121 and R123: while busy, writes to `CMD` and to the operand registers are dropped, set `OVR`
and return OK; writes to `CTRL` and `STATUS` are not locked; and no step that leaves the engine busy
changes an operand or the accepted command. -/
def Obligations.BusyLockDropsWrites : Prop :=
  (∀ (s : State) (v : Word), s.cfg.Ok → s.busy = true →
    (∀ off : BitVec 16, off = 0x010 ∨ off = 0x014 ∨ off = 0x018 →
      busWrite off 4 v s = { s with ovr := true, resp := some .ok }) ∧
    (∀ (x : WideReg) (i : Nat), x ≠ .r → i < s.cfg.nwords →
      busWrite (BitVec.ofNat 16 (x.base + 4 * i)) 4 v s =
        { s with ovr := true, resp := some .ok }) ∧
    (v.getLsbD 31 = false →
      busWrite 0x008 4 v s = { s with irqEn := v.getLsbD 0, resp := some .ok }) ∧
    busWrite 0x00C 4 v s =
      { s with
        done := s.done && !v.getLsbD 1, ovr := s.ovr && !v.getLsbD 6, resp := some .ok }) ∧
  (∀ s t : State, step s = .next t → s.busy = true → t.busy = true →
    t.regA = s.regA ∧ t.regE = s.regE ∧ t.regN = s.regN ∧ t.bfWsize = s.bfWsize ∧
    t.bfSeed = s.bfSeed ∧ t.cur = s.cur ∧ t.cmd = s.cmd)

/-- 20_memory.md §4 (R71), 10_state.md §2–§3 (R34, R35, R38) and R62: an operand write to an idle
engine stores exactly the four bytes it addresses. -/
def Obligations.IdleOperandWriteStoresOneWord : Prop :=
  (∀ (s : State) (x : WideReg) (i : Nat) (v : Word) (off : BitVec 16),
    s.cfg.Ok → s.busy = false → x ≠ .r → i < s.cfg.nwords →
    Wide.wf s.cfg.nwords (s.wide x) → off = BitVec.ofNat 16 (x.base + 4 * i) →
    (x = .a → busWrite off 4 v s = { s with regA := s.regA.set i v, resp := some .ok }) ∧
    (x = .e → busWrite off 4 v s = { s with regE := s.regE.set i v, resp := some .ok }) ∧
    (x = .n → busWrite off 4 v s = { s with regN := s.regN.set i v, resp := some .ok }) ∧
    busRead (busWrite off 4 v s) off 4 = .data v ∧
    (∀ k : Nat, k < 4 → spaceByte (busWrite off 4 v s) (off + BitVec.ofNat 16 k) =
      some (v.extractLsb' (8 * k) 8)) ∧
    (∀ o : BitVec 16, o.toNat < off.toNat ∨ off.toNat + 4 ≤ o.toNat →
      spaceByte (busWrite off 4 v s) o = spaceByte s o)) ∧
  (∀ (s : State) (v : Word), s.busy = false →
    busWrite 0x014 4 v s = { s with bfWsize := v.extractLsb' 0 16, resp := some .ok } ∧
    busWrite 0x018 4 v s = { s with bfSeed := v, resp := some .ok })

/-- R128: a `STATUS` write clears `DONE` and `OVR` where it has ones, and nothing else, in every
phase. -/
def Obligations.StatusWriteClearsDoneAndOvr : Prop :=
  (∀ (s : State) (v : Word),
    busWrite 0x00C 4 v s =
      { s with
        done := if v.getLsbD 1 then false else s.done
        ovr := if v.getLsbD 6 then false else s.ovr
        resp := some .ok }) ∧
  (∀ (s : State), s.statusWord = 0x0000004A →
    busRead (busWrite 0x00C 4 0x42 s) 0x00C 4 = .data 0x00000008)

/-- R129: a `CTRL` write sets `IRQ_EN` from bit 0, or resets when bit 31 is set. -/
def Obligations.CtrlWriteSetsIrqEnable : Prop :=
  ∀ (s : State) (v : Word),
    (v.getLsbD 31 = false →
      busWrite 0x008 4 v s = { s with irqEn := v.getLsbD 0, resp := some .ok }) ∧
    (v.getLsbD 31 = true →
      busWrite 0x008 4 v s = { resetBlock s with resp := some .ok } ∧
      (busWrite 0x008 4 v s).irqEn = false)

/-- R22 and R23: `ID` and `PARAM` hold their constants, and no step changes them. -/
def Obligations.IdentificationIsConstant : Prop :=
  (∀ s : State, readReg s .id = 0x504D4F44) ∧
  (∀ s : State, s.cfg.Ok →
    ((readReg s .param).extractLsb' 0 16).toNat = s.cfg.nbits / 32 ∧
    ((readReg s .param).extractLsb' 16 16).toNat = s.cfg.wmax) ∧
  (∀ s t : State, step s = .next t → readReg t .param = readReg s .param) ∧
  readReg State.reset .param = 0x10000080

/-- 10_state.md §2 (R25): the field layout of `STATUS`, read over the bus. -/
def Obligations.StatusReadsItsFields : Prop :=
  ∀ s : State, ∃ w : Word, busRead s 0x00C 4 = .data w ∧
    w.getLsbD 0 = s.busy ∧ w.getLsbD 1 = s.done ∧ w.getLsbD 2 = s.err ∧ w.getLsbD 3 = s.prime ∧
    w.extractLsb' 4 2 = s.jsym ∧ w.getLsbD 6 = s.ovr ∧ w.getLsbD 7 = s.wreq ∧
    w.extractLsb' 8 4 = s.errcode ∧ w.extractLsb' 12 20 = 0

/-! ## Encoding -/

/-- 30_encoding.md §1–§2: decoding what the encoder writes gives the command back, from the word and
from its byte lanes. -/
def Obligations.DecodeOfEncodeIsIdentity : Prop :=
  ∀ i : Instr, i.WellFormed →
    decode (encode i) = .ok i ∧
    ∀ rest : List Byte, decodeBytes (wordLanes (encode i) ++ rest) = .ok (i, rest)

/-- 30_encoding.md §2: each legal word is the encoding of the one command it decodes to. -/
def Obligations.EncodeOfDecodedIsTheWord : Prop :=
  ∀ (c : Word) (i : Instr), decode c = .ok i → i.WellFormed ∧ encode i = c

/-- R97: a word decodes exactly when it is legal, and is legal exactly when it matches a row. -/
def Obligations.LegalWordsMatchARow : Prop :=
  ∀ c : Word,
    ((∃ i, decode c = .ok i) ↔ legal c = true) ∧
    (legal c = true ↔ ∃ row ∈ opcodeRows, row.Matches c)

/-- 30_encoding.md §2 (R96): no two rows match the same word, and a decoded command's row matches
its word. -/
def Obligations.OpcodeRowsAreDisjoint : Prop :=
  (∀ (c : Word) (r₁ r₂ : OpcodeRow), r₁ ∈ opcodeRows → r₂ ∈ opcodeRows →
    r₁.Matches c → r₂.Matches c → r₁ = r₂) ∧
  (∀ (c : Word) (i : Instr), decode c = .ok i → i.row ∈ opcodeRows ∧ i.row.Matches c)

/-- 30_encoding.md §3 (R101): the assembled word is `(k << 16) or (MOD << 8) or OP`. -/
def Obligations.AssembledWordLayout : Prop :=
  ∀ i : Instr, i.WellFormed →
    encode i =
      (BitVec.ofNat 32 i.count <<< 16) ||| (i.md.setWidth 32 <<< 8) ||| i.op.setWidth 32

/-- Words written out from R96 and 95_test_vectors.md decode to the commands they stand for. -/
def Obligations.SampleWordsDecode : Prop :=
  decode 0x00000000 = .ok .nop ∧ decode 0x00000001 = .ok .bfInit ∧
  decode 0x00000002 = .ok .bfNextT2 ∧ decode 0x00000102 = .ok .bfNextT3 ∧
  decode 0x00000010 = .ok .powmod ∧ decode 0x00000011 = .ok .jacobi ∧
  decode 0x00030020 = .ok (.mrTestS 3) ∧ decode 0x000A0120 = .ok (.mrTestCA 10) ∧
  decode 0x00030220 = .ok (.mrTestCO 3) ∧ decode 0x00030021 = .ok (.ssTest 3) ∧
  decode 0x000A0320 = .error .badModifier ∧ decode 0x00000003 = .error .reservedOpcode

/-! ## Lifecycle -/

/-- 40_control.md §1 (R122): acceptance makes exactly these writes; `ans` is the model's own field
(log 7). -/
def Obligations.AcceptanceWrites : Prop :=
  ∀ (s : State) (c : Word), s.busy = false →
    busWrite 0x010 4 c s =
      { s with
        phase := .run, cur := some c, cmd := c, done := false
        round := 0, acc := [], pend := {}, ans := none, resp := some .ok } ∧
    (busWrite 0x010 4 c s).busy = true ∧ (busWrite 0x010 4 c s).irq = false

/-- R120 and R26: only a `CMD` write to an idle engine starts a command and raises `BUSY`; only the
commit or a reset clears it. -/
def Obligations.BusyRisesAndFallsOnlyAsStated : Prop :=
  (∀ (s : State) (c : Word), s.busy = false →
    (busWrite 0x010 4 c s).busy = true ∧ (busWrite 0x010 4 c s).cur = some c) ∧
  (∀ s t : State, step s = .next t → s.busy = false → t.busy = true →
    ∃ (c : Word) (rest : List HostStmt), s.turns.head? = some .host ∧
      s.script = .write 0x010 4 c :: rest ∧ t.cur = some c ∧ t.cmd = c) ∧
  (∀ s t : State, step s = .next t → s.busy = true → t.busy = false →
    (s.phase = .run ∧ t.done = true ∧ (s.turns = [] ∨ s.turns.head? = some .engine)) ∨
    t = resetBlock t)

/-- The step runs the decoded command: the engine's turn on an accepted word is `exec` of what the
word decodes to (40_control.md §1), and `withFetchWord` puts the word there. -/
def Obligations.EngineTurnRunsTheDecodedCommand : Prop :=
  (∀ (s : State) (c : Word) (i : Instr), s.rstN = true → s.phase = .run → s.cur = some c →
    decode c = .ok i →
    (s.turns = [] → step s = exec i s) ∧
    (∀ ts, s.turns = .engine :: ts → step s = exec i { s with turns := ts })) ∧
  (∀ (s : State) (nbits w : Nat) (i : Instr), decode (BitVec.ofNat 32 (w % 2 ^ nbits)) = .ok i →
    step (s.withFetchWord nbits w) =
      exec i { accept (BitVec.ofNat 32 (w % 2 ^ nbits)) s with rstN := true })

/-- R251: an illegal word ends with `ILLEGAL_COMMAND`, and only the error commit set is written. -/
def Obligations.IllegalWordCommitsError : Prop :=
  ∀ (s : State) (c : Word), s.rstN = true → s.phase = .run → s.cur = some c → legal c = false →
    (s.turns = [] ∨ s.turns.head? = some .engine) →
    step s = .next { s with
      turns := s.turns.tail
      prime := false, jsym := 0, err := true, errcode := 1, done := true, phase := .idle
      pend := { prime := some false, jsym := some 0 } }

/-- R253: an error commit writes `PRIME`, `JSYM`, the status and, for a legal test only, `ROUNDS`,
and leaves everything else as it was. -/
def Obligations.ErrorCommitWritesOnlyItsSet : Prop :=
  ∀ (c : Word) (s t : State), runWord c s = .next t → t.phase = .idle → t.err = true →
    t.prime = false ∧ t.jsym = 0 ∧ t.done = true ∧ t.busy = false ∧
    (∃ e : ErrCode, t.errcode = e.code) ∧
    ((t.errcode = 3 ∨ t.errcode = 4) → t.rounds = 0) ∧
    (t.errcode = 6 → t.rounds = BitVec.ofNat 16 s.round) ∧
    ((¬ ∃ i : Instr, decode c = .ok i ∧ i.isTest = true) → t.rounds = s.rounds) ∧
    t.regR = s.regR ∧ t.xs = s.xs ∧ t.regA = s.regA ∧ t.regE = s.regE ∧ t.regN = s.regN ∧
    t.bfWsize = s.bfWsize ∧ t.bfSeed = s.bfSeed ∧ t.irqEn = s.irqEn ∧ t.ovr = s.ovr

/-- R125: from acceptance to commit every result register keeps its value. -/
def Obligations.ResultsChangeOnlyAtCommit : Prop :=
  ∀ s t : State, step s = .next t → t.busy = true →
    t.regR = s.regR ∧ t.xs = s.xs ∧ t.prime = s.prime ∧ t.jsym = s.jsym ∧ t.rounds = s.rounds ∧
    t.err = s.err ∧ t.errcode = s.errcode

/-- 10_state.md §2–§3 (R29, R30, R36, R37, R39) and 41_bitfolder.md §1 (R141): which commands write
which result, and what no command writes. -/
def Obligations.CommandsWriteOnlyTheirResults : Prop :=
  ∀ (i : Instr) (s t : State), exec i s = .next t →
    (t.regR ≠ s.regR →
      t.err = false ∧ (i = .bfNextT2 ∨ i = .bfNextT3 ∨ i = .powmod ∨ i = .jacobi)) ∧
    (t.xs ≠ s.xs → t.err = false ∧ (i = .bfInit ∨ i = .bfNextT2 ∨ i = .bfNextT3)) ∧
    (t.prime ≠ s.prime → i.isTest = true ∨ (t.err = true ∧ t.prime = false)) ∧
    (t.jsym ≠ s.jsym → i = .jacobi ∨ (t.err = true ∧ t.jsym = 0)) ∧
    (t.rounds ≠ s.rounds → i.isTest = true) ∧
    t.cfg = s.cfg ∧ t.irqEn = s.irqEn ∧ t.ovr = s.ovr ∧ t.cmd = s.cmd ∧ t.cur = s.cur ∧
    t.bfWsize = s.bfWsize ∧ t.bfSeed = s.bfSeed ∧ t.regA = s.regA ∧ t.regE = s.regE ∧
    t.regN = s.regN ∧ t.rstN = s.rstN ∧ t.resp = s.resp ∧ t.script = s.script ∧ t.turns = s.turns

/-- R31: every write the busy lock drops sets `OVR`, a write of 1 to bit 6 and reset clear it,
acceptance and commits leave it, and nothing else sets or clears it: a step sets it only as a write
to `CMD`, `BF_WSIZE`, `BF_SEED` or a word of `A`, `E` or `N` while busy (R121, R123). -/
def Obligations.OvrIsSticky : Prop :=
  (∀ (s : State) (r : Reg) (v : Word), s.busy = true →
    (r = .cmd ∨ r = .bfWsize ∨ r = .bfSeed ∨ ∃ (x : WideReg) (i : Nat), x ≠ .r ∧ r = .wide x i) →
    (writeReg r v s).ovr = true) ∧
  (∀ (s : State) (v : Word), v.getLsbD 6 = true → (busWrite 0x00C 4 v s).ovr = false) ∧
  (∀ s : State, (resetBlock s).ovr = false) ∧
  (∀ (s : State) (c : Word), (accept c s).ovr = s.ovr) ∧
  (∀ (i : Instr) (s t : State), exec i s = .next t → t.ovr = s.ovr) ∧
  (∀ s t : State, step s = .next t →
    (s.ovr = false → t.ovr = true →
      s.busy = true ∧ s.turns.head? = some .host ∧
      ∃ (off : BitVec 16) (v : Word) (r : Reg), s.script.head? = some (.write off 4 v) ∧
        regAt s.cfg off = some r ∧
        (r = .cmd ∨ r = .bfWsize ∨ r = .bfSeed ∨
          ∃ (x : WideReg) (i : Nat), x ≠ .r ∧ r = .wide x i)) ∧
    (s.ovr = true → t.ovr = false →
      (s.turns.head? = some .host ∧
        ∃ v : Word, s.script.head? = some (.write 0x00C 4 v) ∧ v.getLsbD 6 = true) ∨
      t = resetBlock t))

/-- 10_state.md §2 (R27): what sets and what clears `DONE`. -/
def Obligations.DoneMarksTheCommit : Prop :=
  ∀ s t : State, step s = .next t →
    (s.done = false → t.done = true →
      s.phase = .run ∧ t.phase = .idle ∧ (s.turns = [] ∨ s.turns.head? = some .engine)) ∧
    (s.phase = .run → t.phase = .idle → t = resetBlock t ∨ t.done = true) ∧
    (s.done = true → t.done = false →
      (s.turns.head? = some .host ∧
        ((∃ v : Word, s.script.head? = some (.write 0x00C 4 v) ∧ v.getLsbD 1 = true) ∨
          (s.busy = false ∧ ∃ c : Word, s.script.head? = some (.write 0x010 4 c)))) ∨
      t = resetBlock t)

/-- 60_exceptions.md §4 (R270, R271): the level interrupt, and the only ways it rises and falls. -/
def Obligations.IrqRisesAndFallsOnlyAsStated : Prop :=
  (∀ s : State, s.irq = true ↔ s.done = true ∧ s.irqEn = true) ∧
  (∀ s t : State, step s = .next t → s.irq = false → t.irq = true →
    (s.phase = .run ∧ t.phase = .idle ∧ s.irqEn = true) ∨
    (s.done = true ∧ s.turns.head? = some .host ∧
      ∃ v : Word, s.script.head? = some (.write 0x008 4 v) ∧ v.getLsbD 0 = true)) ∧
  (∀ s t : State, step s = .next t → s.irq = true → t.irq = false →
    (s.turns.head? = some .host ∧
      ((∃ v : Word, s.script.head? = some (.write 0x00C 4 v) ∧ v.getLsbD 1 = true) ∨
        (∃ c : Word, s.script.head? = some (.write 0x010 4 c)) ∨
        (∃ v : Word, s.script.head? = some (.write 0x008 4 v) ∧ v.getLsbD 0 = false))) ∨
    t = resetBlock t)

/-! ## Control and BitFolder commands -/

/-- R127: NOP, whole: its commit, its only word, the illegal words beside it, and the rule's
example. -/
def Obligations.NopCommitsNothing : Prop :=
  (∀ s : State,
    exec .nop s = .next { s with
      err := false, errcode := 0, done := true, phase := .idle, pend := {} }) ∧
  (∀ c : Word, decode c = .ok .nop ↔ c = 0) ∧
  (∀ c : Word, opField c = 0 → c ≠ 0 → legal c = false) ∧
  (∀ s : State, s.statusWord = 0x00000146 →
    ∃ t, exec .nop (accept 0 s) = .next t ∧ t.statusWord = 0x00000042)

/-- R140: BF_INIT loads the seed into `XS`, every seed accepted. -/
def Obligations.BfInitLoadsTheSeed : Prop :=
  (∀ s : State,
    exec .bfInit s = .next { s with
      xs := s.bfSeed, err := false, errcode := 0, done := true, phase := .idle
      pend := { xs := some s.bfSeed } }) ∧
  (∀ c : Word, decode c = .ok .bfInit ↔ c = 1)

/-- R145: BF_NEXT at both sampling points. On a legal width it commits `R = V` and the register
stepped `blocks` times, where `V` is the XOR of the `chunks` slices, counted from the left, of the
sampled words written one after the other, block 0 first (most significant); else `INVALID_WIDTH`.
The bit `p` of the stream is bit `p mod 32` of block `blocks - 1 - p div 32`. -/
def Obligations.BfNextFoldsTheStream : Prop :=
  ∀ (s : State) (sp : SamplePoint) (i : Instr) (w : Nat),
    ((sp = .t2 ∧ i = .bfNextT2) ∨ (sp = .t3 ∧ i = .bfNextT3)) → w = s.bfWsize.toNat →
    (w = 0 ∨ s.cfg.wmax < w →
      exec i s = .next { s with
        prime := false, jsym := 0, err := true, errcode := 2, done := true, phase := .idle
        pend := { prime := some false, jsym := some 0 } }) ∧
    (w ≠ 0 → w ≤ s.cfg.wmax → s.cfg.wmax ≤ s.cfg.nbits →
      ∃ (v : Nat) (x : Word),
        exec i s = .next { s with
          regR := wideOfNat s.cfg.nwords v, xs := x
          err := false, errcode := 0, done := true, phase := .idle
          pend := { r := some (wideOfNat s.cfg.nwords v), xs := some x } } ∧
        wideVal (wideOfNat s.cfg.nwords v) = v ∧ v < 2 ^ w ∧
        x = (fun y => (xsStep y).2)^[w / Nat.gcd w 32] s.xs ∧
        ∀ b, b < w → v.testBit b =
          (List.range (32 / Nat.gcd w 32)).foldl (fun par j =>
            par ^^ (sampled sp (xsStep ((fun y => (xsStep y).2)^[
                w / Nat.gcd w 32 - 1 - (w * (32 / Nat.gcd w 32 - 1 - j) + b) / 32] s.xs))).getLsbD
              ((w * (32 / Nat.gcd w 32 - 1 - j) + b) % 32)) false)

/-- 41_bitfolder.md §1 (R142): one xorshift step on naturals, with the masks of the rule. -/
def Obligations.XorshiftStepOnNaturals : Prop :=
  ∀ (x : Word) (t1 t2 t3 : Nat),
    t1 = (x.toNat ^^^ (x.toNat * 2 ^ 13)) % 2 ^ 32 → t2 = t1 ^^^ (t1 / 2 ^ 17) →
    t3 = (t2 ^^^ (t2 * 2 ^ 5)) % 2 ^ 32 →
    (xsStep x).1.toNat = t2 ∧ (xsStep x).2.toNat = t3

/-- 41_bitfolder.md §3 (R147 (a)): for a width `32 * q` the words of `R` are the sampled words, the
first one most significant, with no re-slicing. -/
def Obligations.BfNextMultipleOf32Concatenates : Prop :=
  ∀ (s : State) (sp : SamplePoint) (i : Instr) (q : Nat),
    ((sp = .t2 ∧ i = .bfNextT2) ∨ (sp = .t3 ∧ i = .bfNextT3)) →
    s.bfWsize.toNat = 32 * q → 1 ≤ q → 32 * q ≤ s.cfg.wmax → s.cfg.wmax ≤ s.cfg.nbits →
    ∃ t, exec i s = .next t ∧ t.regR.length = s.cfg.nwords ∧
      (∀ j, j < q → t.regR.getD j 0 =
        sampled sp (xsStep ((fun y => (xsStep y).2)^[q - 1 - j] s.xs))) ∧
      (∀ j, q ≤ j → t.regR.getD j 0 = 0) ∧
      t.xs = (fun y => (xsStep y).2)^[q] s.xs

/-- 41_bitfolder.md §3 (R147 (b), (d), (e)): width 1 is a parity, state 0 stays 0, and both sampling
points leave the same `XS`. -/
def Obligations.BfNextCornerCases : Prop :=
  (∀ (s : State) (sp : SamplePoint) (i : Instr),
    ((sp = .t2 ∧ i = .bfNextT2) ∨ (sp = .t3 ∧ i = .bfNextT3)) →
    s.bfWsize.toNat = 1 → 1 ≤ s.cfg.wmax → 1 ≤ s.cfg.nwords →
    ∃ t, exec i s = .next t ∧ wideVal t.regR =
      ((List.range 32).foldl (fun par b => par ^^ (sampled sp (xsStep s.xs)).getLsbD b)
        false).toNat) ∧
  (∀ (s : State) (i : Instr), (i = .bfNextT2 ∨ i = .bfNextT3) → s.xs = 0 →
    s.bfWsize.toNat ≠ 0 → s.bfWsize.toNat ≤ s.cfg.wmax →
    ∃ t, exec i s = .next t ∧ t.err = false ∧ wideVal t.regR = 0 ∧ t.xs = 0) ∧
  (∀ s t u : State, exec .bfNextT2 s = .next t → exec .bfNextT3 s = .next u → t.xs = u.xs)

/-! ## POWMOD and JACOBI -/

/-- R170 and R172: POWMOD commits `pow(A, E) mod N`, exactly, or `INVALID_MODULUS` when `N = 0`. -/
def Obligations.PowmodCommitsThePower : Prop :=
  ∀ s : State,
    (s.valN = 0 →
      exec .powmod s = .next { s with
        prime := false, jsym := 0, err := true, errcode := 5, done := true, phase := .idle
        pend := { prime := some false, jsym := some 0 } }) ∧
    (s.valN ≠ 0 → Wide.wf s.cfg.nwords s.regN →
      ∃ r : Wide,
        exec .powmod s = .next { s with
          regR := r, err := false, errcode := 0, done := true, phase := .idle
          pend := { r := some r } } ∧
        r.length = s.cfg.nwords ∧ wideVal r = s.valA ^ s.valE % s.valN)

/-- R181 and R182: JACOBI commits the symbol of `A` over `N` (Mathlib's `jacobiSym`) and its
residue, or `INVALID_MODULUS` when `N` is 0 or even. -/
def Obligations.JacobiCommitsTheSymbol : Prop :=
  ∀ s : State,
    (s.valN = 0 ∨ s.valN % 2 = 0 →
      exec .jacobi s = .next { s with
        prime := false, jsym := 0, err := true, errcode := 5, done := true, phase := .idle
        pend := { prime := some false, jsym := some 0 } }) ∧
    (s.valN % 2 = 1 → Wide.wf s.cfg.nwords s.regN →
      ∃ (r : Wide) (e : BitVec 2),
        exec .jacobi s = .next { s with
          regR := r, jsym := e, err := false, errcode := 0, done := true, phase := .idle
          pend := { r := some r, jsym := some e } } ∧
        r.length = s.cfg.nwords ∧
        (wideVal r : Int) = jacobiSym s.valA s.valN % s.valN ∧
        ((jacobiSym s.valA s.valN = 0 ∧ e = 0b00) ∨ (jacobiSym s.valA s.valN = 1 ∧ e = 0b01) ∨
          (jacobiSym s.valA s.valN = -1 ∧ e = 0b11)))

/-- 42_powmod.md §1 (R171): the corner cases of the exponentiation. -/
def Obligations.PowmodCornerCases : Prop :=
  ∀ s t : State, Wide.wf s.cfg.nwords s.regN → s.valN ≠ 0 → exec .powmod s = .next t →
    (s.valN = 1 → wideVal t.regR = 0) ∧
    (s.valE = 0 → 2 ≤ s.valN → wideVal t.regR = 1) ∧
    (s.valA % s.valN = 0 → 1 ≤ s.valE → wideVal t.regR = 0) ∧
    (s.valA % s.valN = 1 ∨ s.valE = 1 → wideVal t.regR = s.valA % s.valN) ∧
    (s.valA = 2 ^ s.cfg.nbits - 2 → s.valN = 2 ^ s.cfg.nbits - 1 → s.valE = 2 → 2 ≤ s.valN →
      wideVal t.regR = 1)

/-! ## The witness tests -/

/-- 43_miller_rabin.md §1 (R202, R203): a Miller–Rabin round passes exactly when the power is 1 or
one of the squares on the way to the odd part's whole power is -1. -/
def Obligations.MrRoundIsTheWitnessCondition : Prop :=
  ∀ n a s m : Nat, n % 2 = 1 → 5 ≤ n → 2 ≤ a → a ≤ n - 2 → n - 1 = 2 ^ s * m → m % 2 = 1 →
    decompose n = (s, m) ∧ 1 ≤ s ∧
    (mrRound n a = true ↔
      a ^ m % n = 1 ∨ ∃ j, j < s ∧ a ^ (2 ^ j * m) % n = n - 1)

/-- 44_solovay_strassen.md §1 (R232): a Solovay–Strassen round passes exactly when the symbol is not
0 and agrees with the power modulo `n`. -/
def Obligations.SsRoundIsTheEulerCondition : Prop :=
  ∀ n a : Nat, n % 2 = 1 → 5 ≤ n → 2 ≤ a → a ≤ n - 2 →
    (ssRound n a = true ↔
      jacobiSym a n ≠ 0 ∧ ((a : Int) ^ ((n - 1) / 2)) % n = jacobiSym a n % n)

/-- 43_miller_rabin.md §2 and 44_solovay_strassen.md §2 (R200, R230), 60_exceptions.md §1 (R252,
R253): a test checks its count, then its candidate, before anything else. -/
def Obligations.TestsCheckCountThenCandidate : Prop :=
  ∀ (i : Instr) (s : State), i.isTest = true → s.ans = none →
    (i.count = 0 →
      exec i s = .next { s with
        prime := false, jsym := 0, rounds := 0, err := true, errcode := 3
        done := true, phase := .idle
        pend := { prime := some false, jsym := some 0, rounds := some 0 } }) ∧
    (i.count ≠ 0 → s.valN = 0 →
      exec i s = .next { s with
        prime := false, jsym := 0, rounds := 0, err := true, errcode := 4
        done := true, phase := .idle
        pend := { prime := some false, jsym := some 0, rounds := some 0 } })

/-- R201 and R231: the edge policy ends all four tests at once, without a witness. -/
def Obligations.TestsFollowTheEdgePolicy : Prop :=
  ∀ (i : Instr) (s : State) (b : Bool), i.isTest = true → s.ans = none → i.count ≠ 0 →
    ((b = false ∧ s.valN = 1) ∨ (b = true ∧ s.valN = 2) ∨ (b = true ∧ s.valN = 3) ∨
      (b = false ∧ 4 ≤ s.valN ∧ s.valN % 2 = 0)) →
    exec i s = .next { s with
      prime := b, rounds := 0, err := false, errcode := 0, done := true, phase := .idle
      pend := { prime := some b, rounds := some 0 } }

/-- 60_exceptions.md §3 (R261): a test on an odd candidate of at least 5 raises its first request,
with its bound, and changes nothing else. -/
def Obligations.TestsRequestTheFirstWitness : Prop :=
  ∀ (i : Instr) (s : State), i.isTest = true → s.ans = none → i.count ≠ 0 →
    s.valN % 2 = 1 → 5 ≤ s.valN →
    exec i s = .next { s with phase := .waitWitness } ∧
    ∀ t : State, exec i s = .next t →
      t.wreq = true ∧ t.busy = true ∧ t.witBound = some (s.valN - 2)

/-- 60_exceptions.md §1 (R254): an answer outside `[2, n-2]` ends every test with `WITNESS_RANGE` and
`ROUNDS <- r`. `ans` is the model's own field (log 7). -/
def Obligations.OutOfRangeWitnessEndsTheTest : Prop :=
  ∀ (i : Instr) (s : State) (a : Nat), i.isTest = true → s.ans = some a →
    (a < 2 ∨ s.valN - 2 < a) →
    exec i s = .next { s with
      prime := false, jsym := 0, rounds := BitVec.ofNat 16 s.round, err := true, errcode := 6
      done := true, phase := .idle, ans := none
      pend :=
        { prime := some false, jsym := some 0, rounds := some (BitVec.ofNat 16 s.round) } }

/-- 43_miller_rabin.md §2 (R204): policy `S` rejects at the first witness-fail and accepts only after
`K` passes. `ans` is the model's own field (log 7). -/
def Obligations.MrTestSRejectsAtFirstFail : Prop :=
  ∀ (s : State) (k a : Nat), s.ans = some a → 2 ≤ a → a ≤ s.valN - 2 →
    (mrRound s.valN a = false →
      exec (.mrTestS k) s = .next { s with
        prime := false, rounds := BitVec.ofNat 16 (s.round + 1), err := false, errcode := 0
        done := true, phase := .idle, ans := none
        pend := { prime := some false, rounds := some (BitVec.ofNat 16 (s.round + 1)) } }) ∧
    (mrRound s.valN a = true → s.round + 1 < k →
      exec (.mrTestS k) s = .next { s with
        phase := .waitWitness, ans := none, round := s.round + 1, acc := s.acc ++ [true] }) ∧
    (mrRound s.valN a = true → k ≤ s.round + 1 →
      exec (.mrTestS k) s = .next { s with
        prime := true, rounds := BitVec.ofNat 16 k, err := false, errcode := 0
        done := true, phase := .idle, ans := none, acc := s.acc ++ [true]
        pend := { prime := some true, rounds := some (BitVec.ofNat 16 k) } })

/-- 43_miller_rabin.md §2 (R205): policy `CA` runs every round and accepts only if all passed.
`ans` is the model's own field (log 7). -/
def Obligations.MrTestCACollectsAll : Prop :=
  ∀ (s : State) (k a : Nat) (p : Bool), s.ans = some a → 2 ≤ a → a ≤ s.valN - 2 →
    p = mrRound s.valN a →
    (s.round + 1 < k →
      exec (.mrTestCA k) s = .next { s with
        phase := .waitWitness, ans := none, round := s.round + 1, acc := s.acc ++ [p] }) ∧
    (k ≤ s.round + 1 → ∀ v : Bool, (v = true ↔ ∀ q ∈ s.acc ++ [p], q = true) →
      exec (.mrTestCA k) s = .next { s with
        prime := v, rounds := BitVec.ofNat 16 k, err := false, errcode := 0
        done := true, phase := .idle, ans := none, acc := s.acc ++ [p]
        pend := { prime := some v, rounds := some (BitVec.ofNat 16 k) } })

/-- 43_miller_rabin.md §2 (R206): policy `CO` runs every round and accepts if at least one passed.
`ans` is the model's own field (log 7). -/
def Obligations.MrTestCOCollectsAny : Prop :=
  ∀ (s : State) (k a : Nat) (p : Bool), s.ans = some a → 2 ≤ a → a ≤ s.valN - 2 →
    p = mrRound s.valN a →
    (s.round + 1 < k →
      exec (.mrTestCO k) s = .next { s with
        phase := .waitWitness, ans := none, round := s.round + 1, acc := s.acc ++ [p] }) ∧
    (k ≤ s.round + 1 → ∀ v : Bool, (v = true ↔ ∃ q ∈ s.acc ++ [p], q = true) →
      exec (.mrTestCO k) s = .next { s with
        prime := v, rounds := BitVec.ofNat 16 k, err := false, errcode := 0
        done := true, phase := .idle, ans := none, acc := s.acc ++ [p]
        pend := { prime := some v, rounds := some (BitVec.ofNat 16 k) } })

/-- 44_solovay_strassen.md §2 (R230, R233): SS_TEST rejects at the first failing round and accepts
after `K` passes. `ans` is the model's own field (log 7). -/
def Obligations.SsTestRejectsAtFirstFail : Prop :=
  ∀ (s : State) (k a : Nat), s.ans = some a → 2 ≤ a → a ≤ s.valN - 2 →
    (ssRound s.valN a = false →
      exec (.ssTest k) s = .next { s with
        prime := false, rounds := BitVec.ofNat 16 (s.round + 1), err := false, errcode := 0
        done := true, phase := .idle, ans := none
        pend := { prime := some false, rounds := some (BitVec.ofNat 16 (s.round + 1)) } }) ∧
    (ssRound s.valN a = true → s.round + 1 < k →
      exec (.ssTest k) s = .next { s with
        phase := .waitWitness, ans := none, round := s.round + 1 }) ∧
    (ssRound s.valN a = true → k ≤ s.round + 1 →
      exec (.ssTest k) s = .next { s with
        prime := true, rounds := BitVec.ofNat 16 k, err := false, errcode := 0
        done := true, phase := .idle, ans := none
        pend := { prime := some true, rounds := some (BitVec.ofNat 16 k) } })

/-- 43_miller_rabin.md §3 (R208 (d)): for the same witnesses `S` and `CA` commit the same `PRIME`, and
`CO` commits 1 whenever `S` does; `CA` and `CO` draw all `K` witnesses. -/
def Obligations.PoliciesCompareAsStated : Prop :=
  ∀ (s : State) (k : Nat) (draws : List Nat), 1 ≤ k → draws.length = k →
    s.valN % 2 = 1 → 5 ≤ s.valN → (∀ a ∈ draws, 2 ≤ a ∧ a ≤ s.valN - 2) →
    ∃ rs rca rco : RunResult,
      runInstr (.mrTestS k) s draws = some rs ∧ runInstr (.mrTestCA k) s draws = some rca ∧
      runInstr (.mrTestCO k) s draws = some rco ∧
      rs.outcome = none ∧ rca.outcome = none ∧ rco.outcome = none ∧
      rs.pend.prime = rca.pend.prime ∧
      (rs.pend.prime = some true → rco.pend.prime = some true) ∧
      rs.used ≤ k ∧ rca.used = k ∧ rco.used = k

/-- 43_miller_rabin.md §3 and 44_solovay_strassen.md §3 (R208 (c), R234 (c)): on a prime candidate of
at least 5, every sequence of in-range witnesses ends every test with `PRIME = 1` and
`ROUNDS = K`. -/
def Obligations.PrimesAreProbablyPrime : Prop :=
  ∀ (i : Instr) (s : State) (draws : List Nat), i.isTest = true → 1 ≤ i.count →
    draws.length = i.count → s.valN.Prime → 5 ≤ s.valN →
    (∀ a ∈ draws, 2 ≤ a ∧ a ≤ s.valN - 2) →
    ∃ res : RunResult, runInstr i s draws = some res ∧ res.outcome = none ∧
      res.pend = { prime := some true, rounds := some (BitVec.ofNat 16 i.count) } ∧
      res.used = i.count

/-- 00_scope.md §5 (R14): a command accepted by the engine, run step by step against any answers,
commits exactly what the function of the state, the word and the answers gives. The hidden `round`
and `acc` are left as the last round leaves them (log 4); the schedule is the model's own (log 2). -/
def Obligations.StepsRefineTheCommandFunction : Prop :=
  ∀ (s : State) (c : Word) (draws : List Nat) (res : RunResult) (ts : List Turn),
    s.rstN = true → s.phase = .run → s.cur = some c → s.ans = none → s.round = 0 → s.acc = [] →
    (∀ a ∈ draws, a < 2 ^ s.cfg.nbits) →
    runCommand s c draws = some res → res.used = draws.length →
    s.turns = drawTurns draws ++ ts →
    ∃ (r : Nat) (l : List Bool),
      Host.Core.run Sys2Proof.core (1 + 2 * draws.length) s =
        .next (commit res.outcome
          { s with pend := res.pend, round := r, acc := l, turns := ts })

/-- 60_exceptions.md §3 and 70_reset_and_hazards.md §3 (R262, R264, R304): an answer is taken once
per request, over `NBITS` wires, and is ignored without a request. -/
def Obligations.WitnessAnswersNeedARequest : Prop :=
  ∀ (s : State) (ts : List Turn) (a : Nat), s.turns = .witness a :: ts →
    (s.wreq = false → step s = .next { s with turns := ts }) ∧
    (s.wreq = true → s.rstN = true →
      step s = .next { s with
        turns := ts, phase := .run, ans := some (a % 2 ^ s.cfg.nbits) })

/-- 70_reset_and_hazards.md §3 (R300): an unanswered request waits for ever; only an answer or a
reset ends it, and the engine's own turns change nothing. -/
def Obligations.WitnessWaitEndsOnlyByAnswerOrReset : Prop :=
  (∀ s : State, s.phase = .waitWitness → s.turns = [] → step s = .next s) ∧
  (∀ s t : State, step s = .next t → s.phase = .waitWitness → t.phase ≠ .waitWitness →
    (∃ a, s.turns.head? = some (.witness a) ∧ t.phase = .run ∧ t.ans = some (a % 2 ^ s.cfg.nbits)) ∨
    (t = resetBlock t ∧
      (s.turns.head? = some .rstLow ∨ s.turns.head? = some .powerLoss ∨
        (s.turns.head? = some .host ∧
          ∃ v : Word, s.script.head? = some (.write 0x008 4 v) ∧ v.getLsbD 31 = true))))

/-! ## The whole machine -/

/-- The invariant holds at reset, at every legal configuration. -/
def Obligations.InvariantHoldsAtReset : Prop :=
  (∀ c : Config, c.Ok → (State.resetWith c).Inv) ∧ State.reset.Inv

/-- Every step keeps the invariant: legal parameters, canonical wide registers, `DONE` and `BUSY`
never both 1 (R27), legal `JSYM` and `ERRCODE` codes (R30, R250), requests only by tests on odd
candidates from 5 on (R261), nothing of a commit set before the commit (R125), the reset state held
while `rst_n = 0` (R291). -/
def Obligations.EveryStepKeepsTheInvariant : Prop :=
  ∀ s t : State, s.Inv → step s = .next t → t.Inv

/-- 60_exceptions.md §2 (R257) and 70_reset_and_hazards.md §1 (R291): no command and no error stops
the machine; a step stops only where the host moves during reset, which is the model's choice
(log 5). -/
def Obligations.StepsStopOnlyOnHostMovesInReset : Prop :=
  ∀ s : State,
    (s.HostMovesInReset → step s = .fault .hostStepDuringReset) ∧
    (¬ s.HostMovesInReset → GoesOn (step s))

/-- 00_scope.md §3 and §5 (R8, R14): no result depends on what the host reads, on `IRQ_EN`, on `OVR`
or on the turns to come: the engine's turn commutes with all of these. -/
def Obligations.EngineIgnoresTheHostSide : Prop :=
  ∀ (s t : State) (resp : Option Response) (script : List HostStmt) (turns : List Turn)
    (irqEn ovr : Bool), engineTurn s = .next t →
    engineTurn { s with
      resp := resp, script := script, turns := turns, irqEn := irqEn, ovr := ovr } =
      .next { t with
        resp := resp, script := script, turns := turns, irqEn := irqEn, ovr := ovr }

/-- 30_encoding.md §3 (R103): `WRW X, v` run by the host on an idle engine loads `v` into `X` and
changes nothing else. -/
def Obligations.WrwLoadsTheRegister : Prop :=
  ∀ (s : State) (x : WideReg) (v : Nat) (rest : List HostStmt) (ts : List Turn),
    s.cfg.Ok → s.rstN = true → s.busy = false → x ≠ .r → Wide.wf s.cfg.nwords (s.wide x) →
    v < 2 ^ s.cfg.nbits → s.script = wrwStmts s.cfg x v ++ rest →
    s.turns = List.replicate s.cfg.nwords .host ++ ts →
    ∃ t : State, Host.Core.run Sys2Proof.core s.cfg.nwords s = .next t ∧
      wideVal (t.wide x) = v ∧
      (x = .a → t = { s with
        regA := t.regA, resp := some .ok, script := rest, turns := ts }) ∧
      (x = .e → t = { s with
        regE := t.regE, resp := some .ok, script := rest, turns := ts }) ∧
      (x = .n → t = { s with
        regN := t.regN, resp := some .ok, script := rest, turns := ts })

/-- 30_encoding.md §3 (R103): `WAIT` reads `STATUS` and goes on exactly when `DONE` reads 1. -/
def Obligations.WaitPollsUntilDone : Prop :=
  ∀ (s : State) (ts : List Turn) (rest : List HostStmt), s.rstN = true → s.turns = .host :: ts →
    s.script = .wait :: rest →
    (s.done = true → step s = .next { s with
      turns := ts, script := rest, resp := some (.data s.statusWord) }) ∧
    (s.done = false → step s = .next { s with
      turns := ts, resp := some (.data s.statusWord) })

/-- 30_encoding.md §3 (R103): `RDW X` run by the host, in any phase, shows the value of `X` and
changes nothing but the host's own side. -/
def Obligations.RdwShowsTheRegister : Prop :=
  ∀ (s : State) (x : WideReg) (rest : List HostStmt) (ts : List Turn),
    s.cfg.Ok → s.rstN = true → Wide.wf s.cfg.nwords (s.wide x) →
    s.script = rdwStmts s.cfg x ++ rest →
    s.turns = List.replicate s.cfg.nwords .host ++ ts →
    scriptValue (.rdw x) (transcript s.cfg.nwords s) = some (wideVal (s.wide x)) ∧
    ∃ t : State, Host.Core.run Sys2Proof.core s.cfg.nwords s = .next t ∧
      t = { s with resp := t.resp, script := rest, turns := ts }
end

