-- ==== Sys2Proof/Laws/Arith.lean ====
section
/-! SUPPORT. The number-theoretic functions against their mathematical definitions (42_powmod.md
R172, R180, 43_miller_rabin.md R202). -/

namespace Sys2Proof.Machine

open Sys2Proof

theorem powmodBits_eq (f b e n : Nat) (h : e < 2 ^ f) : powmodBits f b e n = b ^ e % n := by
  induction f generalizing b e with
  | zero =>
    have he : e = 0 := by simpa using h
    simp [powmodBits, he]
  | succ f ih =>
    have hh : e / 2 < 2 ^ f := by rw [pow_succ] at h; omega
    have hsq : (b * b % n) ^ (e / 2) % n = b ^ (2 * (e / 2)) % n := by
      rw [← Nat.pow_mod, pow_mul, pow_two]
    unfold powmodBits
    split
    · simp_all
    · rw [ih _ _ hh, hsq]
      split <;> rename_i hodd
      · have he : b ^ e = b * b ^ (2 * (e / 2)) := by
          rw [← pow_succ']; congr 1; omega
        rw [he, Nat.mul_mod, Nat.mod_mod, ← Nat.mul_mod]
      · congr 2; omega

/-- `powmod` computes `pow(a, e) mod n` (R172). -/
theorem powmod_eq (a e n : Nat) : powmod a e n = a ^ e % n := by
  unfold powmod
  rw [powmodBits_eq _ _ _ _ (Nat.lt_log2_self), ← Nat.pow_mod]

theorem powmod_lt {a e n : Nat} (h : 0 < n) : powmod a e n < n := by
  rw [powmod_eq]; exact Nat.mod_lt _ h

@[simp] theorem JSymbol.toInt_neg (j : JSymbol) : j.neg.toInt = -j.toInt := by
  cases j <;> rfl

theorem JSymbol.toInt_injective {j k : JSymbol} (h : j.toInt = k.toInt) : j = k := by
  cases j <;> cases k <;> first | rfl | exact absurd h (by decide)

/-- `j mod n` is the remainder of the symbol's value (R181). -/
theorem JSymbol.modN_eq (j : JSymbol) {n : Nat} (h : 0 < n) : (j.modN n : Int) = j.toInt % n := by
  cases j with
  | zero => rfl
  | plus => simp [JSymbol.modN, JSymbol.toInt]
  | minus =>
    have h1 : (-1 : Int) % n = n - 1 := by
      rw [Int.emod_eq_iff (by omega)]
      refine ⟨by omega, by simp, ?_⟩
      exact ⟨1, by ring⟩
    simp only [JSymbol.modN, JSymbol.toInt, h1]
    omega

theorem jacobiLoop_eq (f a n : Nat) (t : JSymbol) (hn : n % 2 = 1) (han : a < n)
    (hf : a * n < 2 ^ f) : (jacobiLoop f a n t).toInt = t.toInt * jacobiSym a n := by
  induction f generalizing a n t with
  | zero =>
    have ha : a = 0 := by
      have : a * n = 0 := by simpa using hf
      rcases Nat.mul_eq_zero.mp this with h | h <;> omega
    subst ha
    unfold jacobiLoop
    split <;> rename_i h1
    · simp [h1]
    · rw [Nat.cast_zero, jacobiSym.zero_left (by omega)]; simp [JSymbol.toInt]
  | succ f ih =>
    unfold jacobiLoop
    rw [pow_succ] at hf
    split
    · rename_i ha
      subst ha
      split <;> rename_i h1
      · simp [h1]
      · rw [Nat.cast_zero, jacobiSym.zero_left (by omega)]; simp [JSymbol.toInt]
    · rename_i ha
      split <;> rename_i he
      · have hle : a / 2 * n < 2 ^ f := by
          have h2 : 2 * (a / 2) = a := by omega
          have h3 : a * n = 2 * (a / 2 * n) := by rw [← Nat.mul_assoc, h2]
          omega
        have hdiv : ((a / 2 : Nat) : Int) = (a : Int) / 2 := by omega
        rw [ih _ _ _ hn (by omega) hle, hdiv, ← jacobiSym.even_odd (a := a) (by omega) hn]
        split <;> simp
      · have ha1 : a % 2 = 1 := by omega
        have h1 : n % a < a := Nat.mod_lt _ (by omega)
        have hle : n % a * a < 2 ^ f := by
          have h2 := Nat.mod_add_div n a
          have h4 : a * 1 ≤ a * (n / a) := Nat.mul_le_mul_left a (Nat.div_pos (by omega) (by omega))
          have h6 : 2 * (n % a) * a ≤ n * a := Nat.mul_le_mul_right a (by omega)
          rw [Nat.mul_comm a n] at hf
          rw [Nat.mul_assoc] at h6
          omega
        rw [ih _ _ _ ha1 h1 hle, Int.natCast_mod, ← jacobiSym.mod_left,
          ← jacobiSym.quadratic_reciprocity_if ha1 hn]
        split <;> simp

/-- The computation of R180 gives the Jacobi symbol. -/
theorem jacobi_eq (a : Nat) {n : Nat} (hn : n % 2 = 1) :
    (jacobi a n).toInt = jacobiSym a n := by
  unfold jacobi
  rw [jacobiLoop_eq _ _ _ _ hn (Nat.mod_lt _ (by omega)) Nat.lt_log2_self, Int.natCast_mod,
    ← jacobiSym.mod_left]
  simp [JSymbol.toInt]

theorem splitTwos_eq (f x : Nat) : x = 2 ^ (splitTwos f x).1 * (splitTwos f x).2 := by
  induction f generalizing x with
  | zero => simp [splitTwos]
  | succ f ih =>
    unfold splitTwos
    split
    · have h := ih (x / 2)
      have h2 : x = 2 * (x / 2) := by omega
      rw [pow_succ, Nat.mul_right_comm, ← h]; omega
    · simp

theorem splitTwos_odd (f x : Nat) (h0 : 0 < x) (hx : x < 2 ^ (f + 1)) :
    (splitTwos f x).2 % 2 = 1 := by
  induction f generalizing x with
  | zero => simp [splitTwos]; omega
  | succ f ih =>
    unfold splitTwos
    split
    · exact ih _ (by omega) (by rw [pow_succ] at hx; omega)
    · simp only; omega

/-- The decomposition of R202. -/
theorem decompose_eq {n : Nat} : n - 1 = 2 ^ (decompose n).1 * (decompose n).2 :=
  splitTwos_eq _ _

theorem decompose_odd {n : Nat} (h : 2 ≤ n) : (decompose n).2 % 2 = 1 :=
  splitTwos_odd _ _ (by omega) Nat.lt_log2_self

end Sys2Proof.Machine
end

