-- ==== Sys2Proof/Laws/State.lean ====
section
/-! SUPPORT. One lemma per field per named update of the state, each by `rfl`. -/

namespace Sys2Proof.Machine

open Sys2Proof

/-! ## `accept` (R122) -/

@[simp] theorem accept_cfg (c : Word) (s : State) :
    (accept c s).cfg = s.cfg := rfl
@[simp] theorem accept_irqEn (c : Word) (s : State) :
    (accept c s).irqEn = s.irqEn := rfl
@[simp] theorem accept_done (c : Word) (s : State) :
    (accept c s).done = false := rfl
@[simp] theorem accept_err (c : Word) (s : State) :
    (accept c s).err = s.err := rfl
@[simp] theorem accept_prime (c : Word) (s : State) :
    (accept c s).prime = s.prime := rfl
@[simp] theorem accept_jsym (c : Word) (s : State) :
    (accept c s).jsym = s.jsym := rfl
@[simp] theorem accept_ovr (c : Word) (s : State) :
    (accept c s).ovr = s.ovr := rfl
@[simp] theorem accept_errcode (c : Word) (s : State) :
    (accept c s).errcode = s.errcode := rfl
@[simp] theorem accept_cmd (c : Word) (s : State) :
    (accept c s).cmd = c := rfl
@[simp] theorem accept_bfWsize (c : Word) (s : State) :
    (accept c s).bfWsize = s.bfWsize := rfl
@[simp] theorem accept_bfSeed (c : Word) (s : State) :
    (accept c s).bfSeed = s.bfSeed := rfl
@[simp] theorem accept_xs (c : Word) (s : State) :
    (accept c s).xs = s.xs := rfl
@[simp] theorem accept_rounds (c : Word) (s : State) :
    (accept c s).rounds = s.rounds := rfl
@[simp] theorem accept_regA (c : Word) (s : State) :
    (accept c s).regA = s.regA := rfl
@[simp] theorem accept_regE (c : Word) (s : State) :
    (accept c s).regE = s.regE := rfl
@[simp] theorem accept_regN (c : Word) (s : State) :
    (accept c s).regN = s.regN := rfl
@[simp] theorem accept_regR (c : Word) (s : State) :
    (accept c s).regR = s.regR := rfl
@[simp] theorem accept_phase (c : Word) (s : State) :
    (accept c s).phase = .run := rfl
@[simp] theorem accept_cur (c : Word) (s : State) :
    (accept c s).cur = some c := rfl
@[simp] theorem accept_round (c : Word) (s : State) :
    (accept c s).round = 0 := rfl
@[simp] theorem accept_acc (c : Word) (s : State) :
    (accept c s).acc = [] := rfl
@[simp] theorem accept_pend (c : Word) (s : State) :
    (accept c s).pend = {} := rfl
@[simp] theorem accept_ans (c : Word) (s : State) :
    (accept c s).ans = none := rfl
@[simp] theorem accept_rstN (c : Word) (s : State) :
    (accept c s).rstN = s.rstN := rfl
@[simp] theorem accept_resp (c : Word) (s : State) :
    (accept c s).resp = s.resp := rfl
@[simp] theorem accept_script (c : Word) (s : State) :
    (accept c s).script = s.script := rfl
@[simp] theorem accept_turns (c : Word) (s : State) :
    (accept c s).turns = s.turns := rfl

/-! ## `commit` (R124) -/

@[simp] theorem commit_cfg (o : Option ErrCode) (s : State) :
    (commit o s).cfg = s.cfg := rfl
@[simp] theorem commit_irqEn (o : Option ErrCode) (s : State) :
    (commit o s).irqEn = s.irqEn := rfl
@[simp] theorem commit_done (o : Option ErrCode) (s : State) :
    (commit o s).done = true := rfl
@[simp] theorem commit_err (o : Option ErrCode) (s : State) :
    (commit o s).err = o.isSome := rfl
@[simp] theorem commit_prime (o : Option ErrCode) (s : State) :
    (commit o s).prime = s.pend.prime.getD s.prime := rfl
@[simp] theorem commit_jsym (o : Option ErrCode) (s : State) :
    (commit o s).jsym = s.pend.jsym.getD s.jsym := rfl
@[simp] theorem commit_ovr (o : Option ErrCode) (s : State) :
    (commit o s).ovr = s.ovr := rfl
@[simp] theorem commit_errcode (o : Option ErrCode) (s : State) :
    (commit o s).errcode = (o.map ErrCode.code).getD 0 := rfl
@[simp] theorem commit_cmd (o : Option ErrCode) (s : State) :
    (commit o s).cmd = s.cmd := rfl
@[simp] theorem commit_bfWsize (o : Option ErrCode) (s : State) :
    (commit o s).bfWsize = s.bfWsize := rfl
@[simp] theorem commit_bfSeed (o : Option ErrCode) (s : State) :
    (commit o s).bfSeed = s.bfSeed := rfl
@[simp] theorem commit_xs (o : Option ErrCode) (s : State) :
    (commit o s).xs = s.pend.xs.getD s.xs := rfl
@[simp] theorem commit_rounds (o : Option ErrCode) (s : State) :
    (commit o s).rounds = s.pend.rounds.getD s.rounds := rfl
@[simp] theorem commit_regA (o : Option ErrCode) (s : State) :
    (commit o s).regA = s.regA := rfl
@[simp] theorem commit_regE (o : Option ErrCode) (s : State) :
    (commit o s).regE = s.regE := rfl
@[simp] theorem commit_regN (o : Option ErrCode) (s : State) :
    (commit o s).regN = s.regN := rfl
@[simp] theorem commit_regR (o : Option ErrCode) (s : State) :
    (commit o s).regR = s.pend.r.getD s.regR := rfl
@[simp] theorem commit_phase (o : Option ErrCode) (s : State) :
    (commit o s).phase = .idle := rfl
@[simp] theorem commit_cur (o : Option ErrCode) (s : State) :
    (commit o s).cur = s.cur := rfl
@[simp] theorem commit_round (o : Option ErrCode) (s : State) :
    (commit o s).round = s.round := rfl
@[simp] theorem commit_acc (o : Option ErrCode) (s : State) :
    (commit o s).acc = s.acc := rfl
@[simp] theorem commit_pend (o : Option ErrCode) (s : State) :
    (commit o s).pend = s.pend := rfl
@[simp] theorem commit_ans (o : Option ErrCode) (s : State) :
    (commit o s).ans = s.ans := rfl
@[simp] theorem commit_rstN (o : Option ErrCode) (s : State) :
    (commit o s).rstN = s.rstN := rfl
@[simp] theorem commit_resp (o : Option ErrCode) (s : State) :
    (commit o s).resp = s.resp := rfl
@[simp] theorem commit_script (o : Option ErrCode) (s : State) :
    (commit o s).script = s.script := rfl
@[simp] theorem commit_turns (o : Option ErrCode) (s : State) :
    (commit o s).turns = s.turns := rfl

/-! ## `requestWitness` (R261) -/

@[simp] theorem requestWitness_cfg (s : State) :
    (requestWitness s).cfg = s.cfg := rfl
@[simp] theorem requestWitness_irqEn (s : State) :
    (requestWitness s).irqEn = s.irqEn := rfl
@[simp] theorem requestWitness_done (s : State) :
    (requestWitness s).done = s.done := rfl
@[simp] theorem requestWitness_err (s : State) :
    (requestWitness s).err = s.err := rfl
@[simp] theorem requestWitness_prime (s : State) :
    (requestWitness s).prime = s.prime := rfl
@[simp] theorem requestWitness_jsym (s : State) :
    (requestWitness s).jsym = s.jsym := rfl
@[simp] theorem requestWitness_ovr (s : State) :
    (requestWitness s).ovr = s.ovr := rfl
@[simp] theorem requestWitness_errcode (s : State) :
    (requestWitness s).errcode = s.errcode := rfl
@[simp] theorem requestWitness_cmd (s : State) :
    (requestWitness s).cmd = s.cmd := rfl
@[simp] theorem requestWitness_bfWsize (s : State) :
    (requestWitness s).bfWsize = s.bfWsize := rfl
@[simp] theorem requestWitness_bfSeed (s : State) :
    (requestWitness s).bfSeed = s.bfSeed := rfl
@[simp] theorem requestWitness_xs (s : State) :
    (requestWitness s).xs = s.xs := rfl
@[simp] theorem requestWitness_rounds (s : State) :
    (requestWitness s).rounds = s.rounds := rfl
@[simp] theorem requestWitness_regA (s : State) :
    (requestWitness s).regA = s.regA := rfl
@[simp] theorem requestWitness_regE (s : State) :
    (requestWitness s).regE = s.regE := rfl
@[simp] theorem requestWitness_regN (s : State) :
    (requestWitness s).regN = s.regN := rfl
@[simp] theorem requestWitness_regR (s : State) :
    (requestWitness s).regR = s.regR := rfl
@[simp] theorem requestWitness_phase (s : State) :
    (requestWitness s).phase = .waitWitness := rfl
@[simp] theorem requestWitness_cur (s : State) :
    (requestWitness s).cur = s.cur := rfl
@[simp] theorem requestWitness_round (s : State) :
    (requestWitness s).round = s.round := rfl
@[simp] theorem requestWitness_acc (s : State) :
    (requestWitness s).acc = s.acc := rfl
@[simp] theorem requestWitness_pend (s : State) :
    (requestWitness s).pend = s.pend := rfl
@[simp] theorem requestWitness_ans (s : State) :
    (requestWitness s).ans = s.ans := rfl
@[simp] theorem requestWitness_rstN (s : State) :
    (requestWitness s).rstN = s.rstN := rfl
@[simp] theorem requestWitness_resp (s : State) :
    (requestWitness s).resp = s.resp := rfl
@[simp] theorem requestWitness_script (s : State) :
    (requestWitness s).script = s.script := rfl
@[simp] theorem requestWitness_turns (s : State) :
    (requestWitness s).turns = s.turns := rfl

/-! ## `dropWrite` (R121, R123) -/

@[simp] theorem dropWrite_cfg (s : State) :
    (dropWrite s).cfg = s.cfg := rfl
@[simp] theorem dropWrite_irqEn (s : State) :
    (dropWrite s).irqEn = s.irqEn := rfl
@[simp] theorem dropWrite_done (s : State) :
    (dropWrite s).done = s.done := rfl
@[simp] theorem dropWrite_err (s : State) :
    (dropWrite s).err = s.err := rfl
@[simp] theorem dropWrite_prime (s : State) :
    (dropWrite s).prime = s.prime := rfl
@[simp] theorem dropWrite_jsym (s : State) :
    (dropWrite s).jsym = s.jsym := rfl
@[simp] theorem dropWrite_ovr (s : State) :
    (dropWrite s).ovr = true := rfl
@[simp] theorem dropWrite_errcode (s : State) :
    (dropWrite s).errcode = s.errcode := rfl
@[simp] theorem dropWrite_cmd (s : State) :
    (dropWrite s).cmd = s.cmd := rfl
@[simp] theorem dropWrite_bfWsize (s : State) :
    (dropWrite s).bfWsize = s.bfWsize := rfl
@[simp] theorem dropWrite_bfSeed (s : State) :
    (dropWrite s).bfSeed = s.bfSeed := rfl
@[simp] theorem dropWrite_xs (s : State) :
    (dropWrite s).xs = s.xs := rfl
@[simp] theorem dropWrite_rounds (s : State) :
    (dropWrite s).rounds = s.rounds := rfl
@[simp] theorem dropWrite_regA (s : State) :
    (dropWrite s).regA = s.regA := rfl
@[simp] theorem dropWrite_regE (s : State) :
    (dropWrite s).regE = s.regE := rfl
@[simp] theorem dropWrite_regN (s : State) :
    (dropWrite s).regN = s.regN := rfl
@[simp] theorem dropWrite_regR (s : State) :
    (dropWrite s).regR = s.regR := rfl
@[simp] theorem dropWrite_phase (s : State) :
    (dropWrite s).phase = s.phase := rfl
@[simp] theorem dropWrite_cur (s : State) :
    (dropWrite s).cur = s.cur := rfl
@[simp] theorem dropWrite_round (s : State) :
    (dropWrite s).round = s.round := rfl
@[simp] theorem dropWrite_acc (s : State) :
    (dropWrite s).acc = s.acc := rfl
@[simp] theorem dropWrite_pend (s : State) :
    (dropWrite s).pend = s.pend := rfl
@[simp] theorem dropWrite_ans (s : State) :
    (dropWrite s).ans = s.ans := rfl
@[simp] theorem dropWrite_rstN (s : State) :
    (dropWrite s).rstN = s.rstN := rfl
@[simp] theorem dropWrite_resp (s : State) :
    (dropWrite s).resp = s.resp := rfl
@[simp] theorem dropWrite_script (s : State) :
    (dropWrite s).script = s.script := rfl
@[simp] theorem dropWrite_turns (s : State) :
    (dropWrite s).turns = s.turns := rfl

/-! ## `writeStatus` (R128) -/

@[simp] theorem writeStatus_cfg (v : Word) (s : State) :
    (writeStatus v s).cfg = s.cfg := rfl
@[simp] theorem writeStatus_irqEn (v : Word) (s : State) :
    (writeStatus v s).irqEn = s.irqEn := rfl
@[simp] theorem writeStatus_done (v : Word) (s : State) :
    (writeStatus v s).done = (s.done && !v.getLsbD 1) := rfl
@[simp] theorem writeStatus_err (v : Word) (s : State) :
    (writeStatus v s).err = s.err := rfl
@[simp] theorem writeStatus_prime (v : Word) (s : State) :
    (writeStatus v s).prime = s.prime := rfl
@[simp] theorem writeStatus_jsym (v : Word) (s : State) :
    (writeStatus v s).jsym = s.jsym := rfl
@[simp] theorem writeStatus_ovr (v : Word) (s : State) :
    (writeStatus v s).ovr = (s.ovr && !v.getLsbD 6) := rfl
@[simp] theorem writeStatus_errcode (v : Word) (s : State) :
    (writeStatus v s).errcode = s.errcode := rfl
@[simp] theorem writeStatus_cmd (v : Word) (s : State) :
    (writeStatus v s).cmd = s.cmd := rfl
@[simp] theorem writeStatus_bfWsize (v : Word) (s : State) :
    (writeStatus v s).bfWsize = s.bfWsize := rfl
@[simp] theorem writeStatus_bfSeed (v : Word) (s : State) :
    (writeStatus v s).bfSeed = s.bfSeed := rfl
@[simp] theorem writeStatus_xs (v : Word) (s : State) :
    (writeStatus v s).xs = s.xs := rfl
@[simp] theorem writeStatus_rounds (v : Word) (s : State) :
    (writeStatus v s).rounds = s.rounds := rfl
@[simp] theorem writeStatus_regA (v : Word) (s : State) :
    (writeStatus v s).regA = s.regA := rfl
@[simp] theorem writeStatus_regE (v : Word) (s : State) :
    (writeStatus v s).regE = s.regE := rfl
@[simp] theorem writeStatus_regN (v : Word) (s : State) :
    (writeStatus v s).regN = s.regN := rfl
@[simp] theorem writeStatus_regR (v : Word) (s : State) :
    (writeStatus v s).regR = s.regR := rfl
@[simp] theorem writeStatus_phase (v : Word) (s : State) :
    (writeStatus v s).phase = s.phase := rfl
@[simp] theorem writeStatus_cur (v : Word) (s : State) :
    (writeStatus v s).cur = s.cur := rfl
@[simp] theorem writeStatus_round (v : Word) (s : State) :
    (writeStatus v s).round = s.round := rfl
@[simp] theorem writeStatus_acc (v : Word) (s : State) :
    (writeStatus v s).acc = s.acc := rfl
@[simp] theorem writeStatus_pend (v : Word) (s : State) :
    (writeStatus v s).pend = s.pend := rfl
@[simp] theorem writeStatus_ans (v : Word) (s : State) :
    (writeStatus v s).ans = s.ans := rfl
@[simp] theorem writeStatus_rstN (v : Word) (s : State) :
    (writeStatus v s).rstN = s.rstN := rfl
@[simp] theorem writeStatus_resp (v : Word) (s : State) :
    (writeStatus v s).resp = s.resp := rfl
@[simp] theorem writeStatus_script (v : Word) (s : State) :
    (writeStatus v s).script = s.script := rfl
@[simp] theorem writeStatus_turns (v : Word) (s : State) :
    (writeStatus v s).turns = s.turns := rfl

/-! ## `resetBlock` (R45, R290) -/

@[simp] theorem resetBlock_cfg (s : State) :
    (resetBlock s).cfg = s.cfg := rfl
@[simp] theorem resetBlock_irqEn (s : State) :
    (resetBlock s).irqEn = false := rfl
@[simp] theorem resetBlock_done (s : State) :
    (resetBlock s).done = false := rfl
@[simp] theorem resetBlock_err (s : State) :
    (resetBlock s).err = false := rfl
@[simp] theorem resetBlock_prime (s : State) :
    (resetBlock s).prime = false := rfl
@[simp] theorem resetBlock_jsym (s : State) :
    (resetBlock s).jsym = 0 := rfl
@[simp] theorem resetBlock_ovr (s : State) :
    (resetBlock s).ovr = false := rfl
@[simp] theorem resetBlock_errcode (s : State) :
    (resetBlock s).errcode = 0 := rfl
@[simp] theorem resetBlock_cmd (s : State) :
    (resetBlock s).cmd = 0 := rfl
@[simp] theorem resetBlock_bfWsize (s : State) :
    (resetBlock s).bfWsize = 0 := rfl
@[simp] theorem resetBlock_bfSeed (s : State) :
    (resetBlock s).bfSeed = Config.seedDefault := rfl
@[simp] theorem resetBlock_xs (s : State) :
    (resetBlock s).xs = Config.seedDefault := rfl
@[simp] theorem resetBlock_rounds (s : State) :
    (resetBlock s).rounds = 0 := rfl
@[simp] theorem resetBlock_regA (s : State) :
    (resetBlock s).regA = List.replicate s.cfg.nwords 0 := rfl
@[simp] theorem resetBlock_regE (s : State) :
    (resetBlock s).regE = List.replicate s.cfg.nwords 0 := rfl
@[simp] theorem resetBlock_regN (s : State) :
    (resetBlock s).regN = List.replicate s.cfg.nwords 0 := rfl
@[simp] theorem resetBlock_regR (s : State) :
    (resetBlock s).regR = List.replicate s.cfg.nwords 0 := rfl
@[simp] theorem resetBlock_phase (s : State) :
    (resetBlock s).phase = .idle := rfl
@[simp] theorem resetBlock_cur (s : State) :
    (resetBlock s).cur = none := rfl
@[simp] theorem resetBlock_round (s : State) :
    (resetBlock s).round = 0 := rfl
@[simp] theorem resetBlock_acc (s : State) :
    (resetBlock s).acc = [] := rfl
@[simp] theorem resetBlock_pend (s : State) :
    (resetBlock s).pend = {} := rfl
@[simp] theorem resetBlock_ans (s : State) :
    (resetBlock s).ans = none := rfl
@[simp] theorem resetBlock_rstN (s : State) :
    (resetBlock s).rstN = s.rstN := rfl
@[simp] theorem resetBlock_resp (s : State) :
    (resetBlock s).resp = s.resp := rfl
@[simp] theorem resetBlock_script (s : State) :
    (resetBlock s).script = s.script := rfl
@[simp] theorem resetBlock_turns (s : State) :
    (resetBlock s).turns = s.turns := rfl

/-! ## Views of the phase (R42) -/

@[simp] theorem busy_accept (c : Word) (s : State) : (accept c s).busy = true := rfl
@[simp] theorem busy_commit (o : Option ErrCode) (s : State) : (commit o s).busy = false := rfl
@[simp] theorem busy_requestWitness (s : State) : (requestWitness s).busy = true := rfl
@[simp] theorem busy_resetBlock (s : State) : (resetBlock s).busy = false := rfl

/-- `BUSY` reads 1 exactly outside `IDLE` (R26, R42). -/
theorem busy_iff (s : State) : s.busy = true ↔ s.phase ≠ .idle := by
  unfold State.busy; cases s.phase <;> decide

/-- `BUSY` reads 0 exactly in `IDLE` (R26, R42). -/
theorem not_busy_iff (s : State) : s.busy = false ↔ s.phase = .idle := by
  unfold State.busy; cases s.phase <;> decide

/-- `WREQ` reads 1 exactly in `WAIT_WITNESS` (R32, R42). -/
theorem wreq_iff (s : State) : s.wreq = true ↔ s.phase = .waitWitness := by
  unfold State.wreq; cases s.phase <;> decide

end Sys2Proof.Machine
end

