-- ==== Sys2Proof/Laws/Wide.lean ====
section
/-! SUPPORT. The wide registers: words and values (10_state.md R38). -/

namespace Sys2Proof.Machine

open Sys2Proof

@[simp] theorem wideVal_nil : wideVal [] = 0 := rfl
@[simp] theorem wideVal_cons (w : Word) (ws : Wide) :
    wideVal (w :: ws) = w.toNat + 2 ^ 32 * wideVal ws := rfl

@[simp] theorem wideOfNat_length (n v : Nat) : (wideOfNat n v).length = n := by
  induction n generalizing v with
  | zero => rfl
  | succ n ih => simp [wideOfNat, ih]

theorem wideVal_lt (x : Wide) : wideVal x < 2 ^ (32 * x.length) := by
  induction x with
  | nil => simp
  | cons w ws ih =>
    have hw := w.isLt
    have hp : 2 ^ (32 * (ws.length + 1)) = 2 ^ 32 * 2 ^ (32 * ws.length) := by
      rw [Nat.mul_add, Nat.pow_add, Nat.mul_comm]
    simp only [wideVal_cons, List.length_cons, hp]
    generalize 2 ^ (32 * ws.length) = q at *
    omega

/-- The register value of the NBITS-bit field `v` is placed in (R9, R38). -/
theorem wideVal_wideOfNat (n v : Nat) : wideVal (wideOfNat n v) = v % 2 ^ (32 * n) := by
  induction n generalizing v with
  | zero => simp [wideOfNat, Nat.mod_one]
  | succ n ih =>
    have hp : 2 ^ (32 * (n + 1)) = 2 ^ 32 * 2 ^ (32 * n) := by
      rw [Nat.mul_add, Nat.pow_add, Nat.mul_comm]
    simp only [wideOfNat, wideVal_cons, ih, BitVec.toNat_ofNat, hp, Nat.mod_mul]

/-- A value that fits is kept whole (R173). -/
theorem wideVal_wideOfNat_of_lt {n v : Nat} (h : v < 2 ^ (32 * n)) :
    wideVal (wideOfNat n v) = v := by
  rw [wideVal_wideOfNat, Nat.mod_eq_of_lt h]

/-- A register is determined by its value. -/
theorem wideOfNat_wideVal (x : Wide) : wideOfNat x.length (wideVal x) = x := by
  induction x with
  | nil => rfl
  | cons w ws ih =>
    have hw := w.isLt
    have h1 : BitVec.ofNat 32 (w.toNat + 2 ^ 32 * wideVal ws) = w := by
      apply BitVec.eq_of_toNat_eq
      rw [BitVec.toNat_ofNat]; omega
    have h2 : (w.toNat + 2 ^ 32 * wideVal ws) / 2 ^ 32 = wideVal ws := by omega
    simp only [List.length_cons, wideVal_cons, wideOfNat, h1, h2, ih]

/-- Word `i` of the register that holds `v` (R38, R103). -/
theorem wideOfNat_getD (n v i : Nat) (h : i < n) :
    (wideOfNat n v).getD i 0 = BitVec.ofNat 32 (v >>> (32 * i)) := by
  induction n generalizing v i with
  | zero => omega
  | succ n ih =>
    cases i with
    | zero => simp [wideOfNat]
    | succ i =>
      have hs : v >>> (32 * (i + 1)) = (v / 2 ^ 32) >>> (32 * i) := by
        rw [Nat.mul_add, Nat.add_comm, Nat.shiftRight_add, Nat.shiftRight_eq_div_pow v]
      rw [hs]
      exact ih (v / 2 ^ 32) i (by omega)

/-- Word `i` of a register is bits `32*i + 31 : 32*i` of its value, 0 beyond the register (R38). -/
theorem wide_getD (x : Wide) (i : Nat) :
    x.getD i 0 = BitVec.ofNat 32 (wideVal x >>> (32 * i)) := by
  by_cases h : i < x.length
  · rw [← wideOfNat_getD x.length (wideVal x) i h, wideOfNat_wideVal]
  · have hv : wideVal x < 2 ^ (32 * i) :=
      Nat.lt_of_lt_of_le (wideVal_lt x) (Nat.pow_le_pow_right (by omega) (by omega))
    rw [Nat.shiftRight_eq_div_pow, Nat.div_eq_of_lt hv, List.getD_eq_default _ _ (by omega)]
    rfl

theorem portValue_lt (c : Config) (a : Nat) : portValue c a < 2 ^ c.nbits :=
  Nat.mod_lt _ (Nat.two_pow_pos _)

theorem portValue_of_lt {c : Config} {a : Nat} (h : a < 2 ^ c.nbits) : portValue c a = a :=
  Nat.mod_eq_of_lt h

end Sys2Proof.Machine
end

