-- ==== Sys2Proof/Laws/Ops.lean ====
section
/-! SUPPORT. What each shared operation can do, said once: the register space and its writes
(20_memory.md R65–R72, 40_control.md R121–R129). -/

namespace Sys2Proof.Machine

open Sys2Proof

/-- Resetting twice is resetting once (R290). -/
@[simp] theorem resetBlock_resetBlock (s : State) : resetBlock (resetBlock s) = resetBlock s := rfl

/-- A dropped or performed write under the busy lock (R121, R123). -/
theorem unlessBusy_cases (s w : State) :
    (s.busy = true ∧ unlessBusy s w = dropWrite s) ∨ (s.busy = false ∧ unlessBusy s w = w) := by
  unfold unlessBusy; cases s.busy <;> simp

theorem unlessBusy_busy {s : State} (w : State) (h : s.busy = true) :
    unlessBusy s w = dropWrite s := by simp [unlessBusy, h]

theorem unlessBusy_idle {s : State} (w : State) (h : s.busy = false) : unlessBusy s w = w := by
  simp [unlessBusy, h]

/-- Everything a write to a register can do (R71): nothing, the busy drop, an acceptance, a
`STATUS` or `CTRL` write, or a store to an operand register of an idle engine. -/
inductive WriteCase (s : State) (r : Reg) (v : Word) : State → Prop where
  | readOnly (h : r = .id ∨ r = .param ∨ r = .bfState ∨ r = .rounds ∨ ∃ i, r = .wide .r i) :
      WriteCase s r v s
  | dropped (h : s.busy = true)
      (hr : r = .cmd ∨ r = .bfWsize ∨ r = .bfSeed ∨ ∃ x i, x ≠ .r ∧ r = .wide x i) :
      WriteCase s r v (dropWrite s)
  | accepted (h : s.busy = false) (hr : r = .cmd) : WriteCase s r v (accept v s)
  | status (hr : r = .status) : WriteCase s r v (writeStatus v s)
  | irqEn (hr : r = .ctrl) (hv : v.getLsbD 31 = false) :
      WriteCase s r v { s with irqEn := v.getLsbD 0 }
  | softReset (hr : r = .ctrl) (hv : v.getLsbD 31 = true) : WriteCase s r v (resetBlock s)
  | bfWsize (h : s.busy = false) (hr : r = .bfWsize) :
      WriteCase s r v { s with bfWsize := v.extractLsb' 0 16 }
  | bfSeed (h : s.busy = false) (hr : r = .bfSeed) : WriteCase s r v { s with bfSeed := v }
  | wideA (i : Nat) (h : s.busy = false) (hr : r = .wide .a i) :
      WriteCase s r v { s with regA := s.regA.set i v }
  | wideE (i : Nat) (h : s.busy = false) (hr : r = .wide .e i) :
      WriteCase s r v { s with regE := s.regE.set i v }
  | wideN (i : Nat) (h : s.busy = false) (hr : r = .wide .n i) :
      WriteCase s r v { s with regN := s.regN.set i v }

theorem writeReg_cases (s : State) (r : Reg) (v : Word) : WriteCase s r v (writeReg r v s) := by
  cases r with
  | id => exact .readOnly (by simp)
  | param => exact .readOnly (by simp)
  | bfState => exact .readOnly (by simp)
  | rounds => exact .readOnly (by simp)
  | status => exact .status rfl
  | ctrl =>
    simp only [writeReg, writeCtrl]
    cases hv : v.getLsbD 31
    · exact .irqEn rfl hv
    · exact .softReset rfl hv
  | cmd =>
    rcases unlessBusy_cases s (accept v s) with ⟨h, e⟩ | ⟨h, e⟩ <;> simp only [writeReg, e]
    · exact .dropped h (by simp)
    · exact .accepted h rfl
  | bfWsize =>
    rcases unlessBusy_cases s { s with bfWsize := v.extractLsb' 0 16 } with ⟨h, e⟩ | ⟨h, e⟩ <;>
      simp only [writeReg, e]
    · exact .dropped h (by simp)
    · exact .bfWsize h rfl
  | bfSeed =>
    rcases unlessBusy_cases s { s with bfSeed := v } with ⟨h, e⟩ | ⟨h, e⟩ <;>
      simp only [writeReg, e]
    · exact .dropped h (by simp)
    · exact .bfSeed h rfl
  | wide x i =>
    cases x with
    | r => exact .readOnly (by simp)
    | a =>
      rcases unlessBusy_cases s { s with regA := s.regA.set i v } with ⟨h, e⟩ | ⟨h, e⟩ <;>
        simp only [writeReg, e]
      · exact .dropped h (.inr (.inr (.inr ⟨_, i, by decide, rfl⟩)))
      · exact .wideA i h rfl
    | e =>
      rcases unlessBusy_cases s { s with regE := s.regE.set i v } with ⟨h, e⟩ | ⟨h, e⟩ <;>
        simp only [writeReg, e]
      · exact .dropped h (.inr (.inr (.inr ⟨_, i, by decide, rfl⟩)))
      · exact .wideE i h rfl
    | n =>
      rcases unlessBusy_cases s { s with regN := s.regN.set i v } with ⟨h, e⟩ | ⟨h, e⟩ <;>
        simp only [writeReg, e]
      · exact .dropped h (.inr (.inr (.inr ⟨_, i, by decide, rfl⟩)))
      · exact .wideN i h rfl

/-- Everything a bus write can do (R71, R72). -/
theorem busWrite_cases (off : BitVec 16) (bytes : Nat) (v : Word) (s : State) :
    (busTarget s.cfg off bytes = none ∧ busWrite off bytes v s = { s with resp := some .busError }) ∨
    ∃ r, busTarget s.cfg off bytes = some r ∧
      busWrite off bytes v s = { writeReg r v s with resp := some .ok } := by
  unfold busWrite
  cases busTarget s.cfg off bytes <;> simp

/-- An answer is taken only while a request is up (R262, R264). -/
theorem answerWitness_cases (a : Nat) (s : State) :
    (s.rstN = true ∧ s.phase = .waitWitness ∧
      answerWitness a s = { s with ans := some (portValue s.cfg a), phase := .run }) ∨
    ((s.rstN = false ∨ s.phase ≠ .waitWitness) ∧ answerWitness a s = s) := by
  unfold answerWitness
  by_cases h1 : s.rstN = true <;> by_cases h2 : s.phase = .waitWitness <;> simp_all

/-- Each register sits at its offset (R20, R66). -/
theorem regAt_offset_wide (c : Config) (x : WideReg) (i : Nat) (hc : c.nwords ≤ 1024)
    (hi : i < c.nwords) : regAt c (Reg.wide x i).offset = some (.wide x i) := by
  have h : ((Reg.wide x i).offset).toNat = x.base + 4 * i := by
    simp only [Reg.offset, BitVec.toNat_ofNat]
    apply Nat.mod_eq_of_lt
    cases x <;> simp only [WideReg.base] <;> omega
  have hm : (x.base + 4 * i) % 4 = 0 := by cases x <;> simp only [WideReg.base] <;> omega
  have hw : (x.base + 4 * i) % 0x1000 / 4 = i := by cases x <;> simp only [WideReg.base] <;> omega
  unfold regAt
  rw [h, if_neg (by simp [hm]), hw]
  cases x with
  | a => rw [show (WideReg.a.base + 4 * i) / 0x1000 = 1 by simp only [WideReg.base]; omega]; simp [windowReg, hi]
  | e => rw [show (WideReg.e.base + 4 * i) / 0x1000 = 2 by simp only [WideReg.base]; omega]; simp [windowReg, hi]
  | n => rw [show (WideReg.n.base + 4 * i) / 0x1000 = 3 by simp only [WideReg.base]; omega]; simp [windowReg, hi]
  | r => rw [show (WideReg.r.base + 4 * i) / 0x1000 = 4 by simp only [WideReg.base]; omega]; simp [windowReg, hi]

/-- The converse: the register at an offset is the one that sits there (R20, R66). -/
theorem offset_of_regAt {c : Config} {off : BitVec 16} {r : Reg} (h : regAt c off = some r) :
    off = r.offset ∧ ∀ x i, r = .wide x i → i < c.nwords := by
  have hlt := off.isLt
  unfold regAt at h
  split at h
  · cases h
  · rename_i hm
    have key : ∀ n : Nat, off.toNat = n → off = BitVec.ofNat 16 n := by
      rintro n rfl; simp
    split at h <;> rename_i hq
    · have h9 : ∀ j : Nat, off.toNat / 4 = j → off.toNat = 4 * j := by omega
      unfold controlReg at h
      split at h <;> rename_i hj <;> first
        | (cases h; exact ⟨key _ (h9 _ hj), by simp⟩)
        | cases h
    all_goals first
      | cases h
      | (unfold windowReg at h
         split at h
         · rename_i hi
           cases h
           refine ⟨key _ ?_, ?_⟩
           · simp only [WideReg.base]; omega
           · rintro x i he; cases he; exact hi
         · cases h)

theorem busTarget_eq_some {c : Config} {off : BitVec 16} {bytes : Nat} {r : Reg}
    (h : busTarget c off bytes = some r) :
    bytes = 4 ∧ off = r.offset ∧ ∀ x i, r = .wide x i → i < c.nwords := by
  unfold busTarget at h
  split at h
  · exact ⟨by assumption, offset_of_regAt h⟩
  · cases h

theorem busTarget_wide {c : Config} (x : WideReg) {i : Nat} (hc : c.nwords ≤ 1024)
    (hi : i < c.nwords) : busTarget c (BitVec.ofNat 16 (x.base + 4 * i)) 4 = some (.wide x i) := by
  rw [busTarget, if_pos rfl]; exact regAt_offset_wide c x i hc hi

/-- A byte of the register space depends on its own word only (R62). -/
theorem spaceByte_congr {s t : State} {off : BitVec 16} (hc : t.cfg = s.cfg)
    (h : ∀ r, regAt s.cfg (wordOffset off) = some r → readReg t r = readReg s r) :
    spaceByte t off = spaceByte s off := by
  unfold spaceByte
  rw [hc]
  generalize regAt s.cfg (wordOffset off) = q at h
  cases q with
  | none => rfl
  | some r => simp only [h r rfl]

/-- The offset of a word in its window (R66). -/
theorem toNat_windowOffset (c : Config) (x : WideReg) (i : Nat) (hc : c.nwords ≤ 1024)
    (hi : i < c.nwords) : (BitVec.ofNat 16 (x.base + 4 * i)).toNat = x.base + 4 * i := by
  simp only [BitVec.toNat_ofNat]
  apply Nat.mod_eq_of_lt
  cases x <;> simp only [WideReg.base] <;> omega

theorem toNat_wordOffset (off : BitVec 16) : (wordOffset off).toNat = off.toNat / 4 * 4 := by
  have h := off.isLt
  simp only [wordOffset, BitVec.toNat_ofNat]
  omega

theorem busWrite_of_target {off : BitVec 16} {bytes : Nat} {s : State} {r : Reg} (v : Word)
    (h : busTarget s.cfg off bytes = some r) :
    busWrite off bytes v s = { writeReg r v s with resp := some .ok } := by
  simp [busWrite, h]

theorem busWrite_of_none {off : BitVec 16} {bytes : Nat} {s : State} (v : Word)
    (h : busTarget s.cfg off bytes = none) :
    busWrite off bytes v s = { s with resp := some .busError } := by
  simp [busWrite, h]

/-- A `CTRL` write without the reset bit (R129). -/
theorem writeCtrl_of_not_reset {v : Word} (s : State) (h : v.getLsbD 31 = false) :
    writeCtrl v s = { s with irqEn := v.getLsbD 0 } := by
  unfold writeCtrl; rw [h]; rfl

/-- A `CTRL` write with the reset bit (R129, R292). -/
theorem writeCtrl_of_reset {v : Word} (s : State) (h : v.getLsbD 31 = true) :
    writeCtrl v s = resetBlock s := by
  unfold writeCtrl; rw [h]; rfl

end Sys2Proof.Machine
end

