-- ==== Sys2Proof/Laws/Exec.lean ====
section
/-! SUPPORT. What one step of the engine on a command can do, said once for all commands
(40_control.md R124, R130, 60_exceptions.md R253, R261). -/

namespace Sys2Proof.Machine

open Sys2Proof

/-- What a command may write at its commit (R29, R30, R36, R37, R39, R253). -/
structure CommitFacts (i : Instr) (s : State) (o : Option ErrCode) (p : CommitSet) : Prop where
  error : ∀ code, o = some code → ∃ rs, p = errorSet rs
  r : p.r ≠ none → o = none ∧ (i = .bfNextT2 ∨ i = .bfNextT3 ∨ i = .powmod ∨ i = .jacobi) ∧
    ∃ v, p.r = some (wideOfNat s.cfg.nwords v)
  xs : p.xs ≠ none → o = none ∧ (i = .bfInit ∨ i = .bfNextT2 ∨ i = .bfNextT3)
  prime : p.prime ≠ none → i.isTest = true ∨ o ≠ none
  jsym : p.jsym ≠ none → i = .jacobi ∨ o ≠ none
  jsymCode : p.jsym ≠ some 0b10
  rounds : p.rounds ≠ none → i.isTest = true

/-- Everything the engine's step on a command can do: commit a set it has just built, or raise a
request. Only the hidden fields `round`, `acc` and `ans` may differ otherwise. -/
inductive ExecCase (i : Instr) (s : State) : State → Prop where
  | commits (o : Option ErrCode) (p : CommitSet) (l : List Bool) (a : Option Nat)
      (ha : a = s.ans ∨ a = none) (hat : i.isTest = true → a = none) (h : CommitFacts i s o p) :
      ExecCase i s (commit o { s with pend := p, acc := l, ans := a })
  | requests (h : s.ans = none) (ht : i.isTest = true) (hk : i.count ≠ 0) (hn : s.valN ≠ 0)
      (he : edge s.valN = none) : ExecCase i s (requestWitness s)
  | requestsAgain (l : List Bool) (h : s.ans ≠ none) (ht : i.isTest = true)
      (hk : s.round + 1 < i.count) :
      ExecCase i s (requestWitness { s with ans := none, round := s.round + 1, acc := l })

/-- A command without draws ends in one step (R130). -/
theorem finish_case {i : Instr} {s : State} (hi : i.isTest = false)
    (res : Except ErrCode CommitSet) (hok : ∀ p, res = .ok p → CommitFacts i s none p) : ExecCase i s (finish res s) := by
  cases res with
  | ok p => exact .commits none p s.acc s.ans (.inl rfl) (by simp [hi]) (hok p rfl)
  | error code =>
    refine .commits (some code) (errorSet none) s.acc s.ans (.inl rfl) (by simp [hi])
      ⟨?_, ?_, ?_, ?_, ?_, ?_, ?_⟩ <;> simp [errorSet]

/-- The error commit of a test. -/
theorem errorSet_facts {i : Instr} (ht : i.isTest = true) (s : State) (code : ErrCode)
    (rs : BitVec 16) : CommitFacts i s (some code) (errorSet (some rs)) := by
  constructor <;> simp [errorSet, ht]

/-- The success commit of a test. -/
theorem testSet_facts {i : Instr} (ht : i.isTest = true) (s : State) (b : Bool)
    (rs : BitVec 16) : CommitFacts i s none { prime := some b, rounds := some rs } := by
  constructor <;> simp [ht]

theorem testStart_case {i : Instr} {s : State} (ht : i.isTest = true) (h : s.ans = none) :
    ExecCase i s (testStart i.count s) := by
  unfold testStart
  split
  · exact .commits _ _ s.acc s.ans (.inl rfl) (fun _ => h) (errorSet_facts ht s _ _)
  · rename_i hk
    split
    · exact .commits _ _ s.acc s.ans (.inl rfl) (fun _ => h) (errorSet_facts ht s _ _)
    · rename_i hn
      split
      · exact .commits _ _ s.acc s.ans (.inl rfl) (fun _ => h) (testSet_facts ht s _ _)
      · rename_i he
        exact .requests h ht hk hn he

theorem mrTest_case {i : Instr} {s : State} (pol : Policy) (ht : i.isTest = true) :
    ExecCase i s (mrTest pol i.count s) := by
  unfold mrTest
  cases h : s.ans with
  | none => exact testStart_case ht h
  | some a =>
    have hne : s.ans ≠ none := by simp [h]
    simp only [mrAnswer]
    split
    · exact .commits _ _ s.acc none (.inr rfl) (fun _ => rfl) (errorSet_facts ht s _ _)
    · split
      · exact .commits _ _ s.acc none (.inr rfl) (fun _ => rfl) (testSet_facts ht s _ _)
      · split
        · rename_i hk
          exact .requestsAgain _ hne ht hk
        · exact .commits _ _ _ none (.inr rfl) (fun _ => rfl) (testSet_facts ht s _ _)

theorem ssTest_case {i : Instr} {s : State} (ht : i.isTest = true) :
    ExecCase i s (ssTest i.count s) := by
  unfold ssTest
  cases h : s.ans with
  | none => exact testStart_case ht h
  | some a =>
    have hne : s.ans ≠ none := by simp [h]
    simp only [ssAnswer]
    split
    · exact .commits _ _ s.acc none (.inr rfl) (fun _ => rfl) (errorSet_facts ht s _ _)
    · split
      · exact .commits _ _ s.acc none (.inr rfl) (fun _ => rfl) (testSet_facts ht s _ _)
      · split
        · rename_i hk
          exact .requestsAgain _ hne ht hk
        · exact .commits _ _ s.acc none (.inr rfl) (fun _ => rfl) (testSet_facts ht s _ _)

theorem bfNext_facts {i : Instr} {s : State} (sp : SamplePoint)
    (hi : i = .bfNextT2 ∨ i = .bfNextT3) {p : CommitSet} (h : bfNextRun sp s = .ok p) :
    CommitFacts i s none p := by
  unfold bfNextRun at h
  split at h
  · cases h
  · cases h
    constructor <;> simp
    · rcases hi with h | h <;> simp [h]
    · rcases hi with h | h <;> simp [h]

/-- What one step of the engine on a command can do. -/
theorem exec_cases {i : Instr} {s t : State} (h : exec i s = .next t) : ExecCase i s t := by
  cases i with
  | nop =>
    cases h
    refine finish_case rfl _ fun p hp => ?_
    cases hp
    constructor <;> simp
  | bfInit =>
    cases h
    refine finish_case rfl _ fun p hp => ?_
    cases hp
    constructor <;> simp
  | bfNextT2 => cases h; exact finish_case rfl _ fun p hp => bfNext_facts .t2 (.inl rfl) hp
  | bfNextT3 => cases h; exact finish_case rfl _ fun p hp => bfNext_facts .t3 (.inr rfl) hp
  | powmod =>
    cases h
    refine finish_case rfl _ fun p hp => ?_
    unfold powmodRun at hp
    split at hp <;> cases hp
    constructor <;> simp
  | jacobi =>
    cases h
    refine finish_case rfl _ fun p hp => ?_
    unfold jacobiRun at hp
    split at hp <;> cases hp
    constructor <;> simp
    cases jacobi s.valA s.valN <;> decide
  | mrTestS k => cases h; exact mrTest_case (i := .mrTestS k) .s rfl
  | mrTestCA k => cases h; exact mrTest_case (i := .mrTestCA k) .ca rfl
  | mrTestCO k => cases h; exact mrTest_case (i := .mrTestCO k) .co rfl
  | ssTest k => cases h; exact ssTest_case (i := .ssTest k) rfl

end Sys2Proof.Machine
end

