-- ==== Sys2Proof/Laws/Step.lean ====
section
/-! SUPPORT. What one step of the machine can do, said once (00_scope.md R12). -/

namespace Sys2Proof.Machine

open Sys2Proof

/-- The state in which the agent of this step moves: the schedule without its head. -/
abbrev State.moving (s : State) : State := { s with turns := s.turns.tail }

/-- The agent of a step and what it did. -/
inductive StepCase (s t : State) : Prop where
  | engine (hd : s.turns = [] ∨ s.turns.head? = some .engine) (h : engineTurn s.moving = .next t)
  | host (hd : s.turns.head? = some .host) (h : hostTurn s.moving = .next t)
  | witness (a : Nat) (hd : s.turns.head? = some (.witness a)) (h : t = answerWitness a s.moving)
  | rstLow (hd : s.turns.head? = some .rstLow) (h : t = resetBlock { s.moving with rstN := false })
  | rstHigh (hd : s.turns.head? = some .rstHigh) (h : t = { s.moving with rstN := true })
  | powerLoss (hd : s.turns.head? = some .powerLoss) (h : t = resetBlock s.moving)

theorem step_cases {s t : State} (h : step s = .next t) : StepCase s t := by
  unfold step at h
  cases ht : s.turns with
  | nil =>
    have hm : s.moving = s := by
      cases s; simp_all [State.moving]
    rw [ht] at h
    exact .engine (.inl ht) (by rw [hm]; exact h)
  | cons u us =>
    rw [ht] at h
    have hm : s.moving = { s with turns := us } := by simp [State.moving, ht]
    cases u with
    | host => exact .host (by simp [ht]) (by rw [hm]; exact h)
    | engine => exact .engine (.inr (by simp [ht])) (by rw [hm]; exact h)
    | witness a => cases h; exact .witness a (by simp [ht]) (by rw [hm])
    | rstLow => cases h; exact .rstLow (by simp [ht]) (by rw [hm])
    | rstHigh => cases h; exact .rstHigh (by simp [ht]) (by rw [hm])
    | powerLoss => cases h; exact .powerLoss (by simp [ht]) (by rw [hm])

/-- The engine's turn: nothing, the accepted command's step, or the end of an illegal word
(40_control.md R130, 60_exceptions.md R251). -/
theorem engineTurn_cases {s t : State} (h : engineTurn s = .next t) :
    (t = s ∧ (s.rstN = false ∨ s.phase ≠ .run ∨ s.cur = none)) ∨
    (s.rstN = true ∧ s.phase = .run ∧ ∃ c, s.cur = some c ∧
      ((∃ i, decode c = .ok i ∧ exec i s = .next t) ∨
        (∃ e, decode c = .error e ∧ t = runIllegal s))) := by
  unfold engineTurn at h
  cases hr : s.rstN with
  | false => rw [hr] at h; simp at h; exact .inl ⟨h.symm, .inl rfl⟩
  | true =>
    rw [hr, if_pos rfl] at h
    cases hp : s.phase with
    | idle => rw [hp] at h; cases h; exact .inl ⟨rfl, by simp⟩
    | waitWitness => rw [hp] at h; cases h; exact .inl ⟨rfl, by simp⟩
    | run =>
      cases hc : s.cur with
      | none => rw [hp, hc] at h; cases h; exact .inl ⟨rfl, by simp⟩
      | some c =>
        rw [hp, hc] at h
        refine .inr ⟨rfl, rfl, c, rfl, ?_⟩
        simp only [runWord] at h
        cases hd : decode c with
        | ok i => rw [hd] at h; exact .inl ⟨i, rfl, h⟩
        | error e => rw [hd] at h; cases h; exact .inr ⟨e, rfl, rfl⟩

/-- The host's turn: nothing left to do, or the next statement of its script (R102). -/
theorem hostTurn_cases {s t : State} (h : hostTurn s = .next t) :
    (s.script = [] ∧ t = s) ∨
    ∃ st rest, s.script = st :: rest ∧ s.rstN = true ∧ t = hostStmt st rest s := by
  unfold hostTurn at h
  cases hs : s.script with
  | nil => rw [hs] at h; cases h; exact .inl ⟨rfl, rfl⟩
  | cons st rest =>
    rw [hs] at h
    cases hr : s.rstN with
    | false => simp [hr] at h
    | true => simp [hr] at h; exact .inr ⟨st, rest, rfl, rfl, h.symm⟩

/-- Everything one step of the machine can do, guards included (00_scope.md R12): the agent had
nothing to do, a command's step, the end of an illegal word, a host statement, an answer, a pin. -/
inductive StepEffect (s t : State) : Prop where
  | nothing (h : t = s.moving)
  | command (i : Instr) (c : Word) (hd : s.turns = [] ∨ s.turns.head? = some .engine)
      (hr : s.rstN = true) (hp : s.phase = .run) (hc : s.cur = some c) (hi : decode c = .ok i)
      (h : ExecCase i s.moving t)
  | illegal (c : Word) (e : Illegal) (hd : s.turns = [] ∨ s.turns.head? = some .engine)
      (hr : s.rstN = true) (hp : s.phase = .run) (hc : s.cur = some c)
      (he : decode c = .error e) (h : t = runIllegal s.moving)
  | read (off : BitVec 16) (bytes : Nat) (rest : List HostStmt) (rsp : Option Response)
      (hd : s.turns.head? = some .host) (hr : s.rstN = true)
      (hs : s.script = .read off bytes :: rest)
      (h : t = { s.moving with script := rest, resp := rsp })
  | wait (rest script : List HostStmt) (rsp : Option Response)
      (hd : s.turns.head? = some .host) (hr : s.rstN = true) (hs : s.script = .wait :: rest)
      (h : t = { s.moving with script := script, resp := rsp })
  | busError (off : BitVec 16) (bytes : Nat) (v : Word) (rest : List HostStmt)
      (hd : s.turns.head? = some .host) (hr : s.rstN = true)
      (hs : s.script = .write off bytes v :: rest)
      (h : t = { s.moving with script := rest, resp := some .busError })
  | write (r : Reg) (v : Word) (rest : List HostStmt) (u : State)
      (hd : s.turns.head? = some .host) (hr : s.rstN = true)
      (hs : s.script = .write r.offset 4 v :: rest) (ht : regAt s.cfg r.offset = some r)
      (hi : ∀ x i, r = .wide x i → i < s.cfg.nwords)
      (hu : WriteCase { s.moving with script := rest } r v u)
      (h : t = { u with resp := some .ok })
  | answer (a : Nat) (hd : s.turns.head? = some (.witness a)) (hr : s.rstN = true)
      (hp : s.phase = .waitWitness)
      (h : t = { s.moving with ans := some (portValue s.cfg a), phase := .run })
  | rstLow (hd : s.turns.head? = some .rstLow) (h : t = resetBlock { s.moving with rstN := false })
  | rstHigh (hd : s.turns.head? = some .rstHigh) (h : t = { s.moving with rstN := true })
  | powerLoss (hd : s.turns.head? = some .powerLoss) (h : t = resetBlock s.moving)

theorem step_effects {s t : State} (h : step s = .next t) : StepEffect s t := by
  cases step_cases h with
  | engine hd h =>
    rcases engineTurn_cases h with ⟨h, _⟩ | ⟨h1, h2, c, h3, ⟨i, h4, h5⟩ | ⟨e, h4, h5⟩⟩
    · exact .nothing h
    · exact .command i c hd h1 h2 h3 h4 (exec_cases h5)
    · exact .illegal c e hd h1 h2 h3 h4 h5
  | host hd h =>
    rcases hostTurn_cases h with ⟨_, h⟩ | ⟨st, rest, h1, h2, h3⟩
    · exact .nothing h
    · cases st with
      | read off bytes => exact .read off bytes rest _ hd h2 h1 h3
      | wait => exact .wait rest _ _ hd h2 h1 h3
      | write off bytes v =>
        simp only [hostStmt] at h3
        rcases busWrite_cases off bytes v { s.moving with script := rest } with
          ⟨_, e⟩ | ⟨r, hr, e⟩
        · exact .busError off bytes v rest hd h2 h1 (h3.trans e)
        · have ht := hr
          obtain ⟨rfl, rfl, hi⟩ := busTarget_eq_some hr
          simp only [busTarget, if_true] at ht
          exact .write r v rest _ hd h2 h1 ht hi (writeReg_cases _ r v) (h3.trans e)
  | witness a hd h =>
    rcases answerWitness_cases a s.moving with ⟨h1, h2, h3⟩ | ⟨_, h3⟩
    · exact .answer a hd h1 h2 (h.trans h3)
    · exact .nothing (h.trans h3)
  | rstLow hd h => exact .rstLow hd h
  | rstHigh hd h => exact .rstHigh hd h
  | powerLoss hd h => exact .powerLoss hd h

/-- A run of the host's interface, one step peeled off. -/
theorem run_succ_of_step {M : Host.Core} {k : Nat} {s t : M.State} (h : M.step s = .next t) :
    Host.Core.run M (k + 1) s = Host.Core.run M k t := by
  rw [Host.Core.run.eq_2, h]

/-- The same for this machine. -/
theorem run_of_step {k : Nat} {s t : State} (h : step s = .next t) :
    Host.Core.run Sys2Proof.core (k + 1) s = Host.Core.run Sys2Proof.core k t :=
  run_succ_of_step (M := Sys2Proof.core) h

theorem run_zero (s : State) : Host.Core.run Sys2Proof.core 0 s = .next s :=
  Host.Core.run.eq_1 Sys2Proof.core s

/-- A command always goes on (R13, R257). -/
theorem exec_goesOn (i : Instr) (s : State) : GoesOn (exec i s) := by
  cases i <;> exact ⟨_, rfl⟩

end Sys2Proof.Machine
end

