-- ==== Sys2Proof/Laws/Memory.lean ====
section
/-! SUPPORT. Every operation keeps the canonical form of the block's storage, and the reset state
has it (10_state.md R38, R39, R45). -/

namespace Sys2Proof.Machine

open Sys2Proof

theorem resetWith_memory_wf (c : Config) : Memory.wf (State.resetWith c) := by
  simp [Memory.wf, Wide.wf, State.resetWith]

theorem reset_memory_wf : Memory.wf State.reset := resetWith_memory_wf _

theorem resetBlock_memory_wf (s : State) : Memory.wf (resetBlock s) := by
  simp [Memory.wf, Wide.wf]

/-- A register write keeps the canonical form (R71). -/
theorem writeCase_memory_wf {s t : State} {r : Reg} {v : Word} (h : Memory.wf s)
    (hc : WriteCase s r v t) : Memory.wf t := by
  cases hc with
  | softReset => exact resetBlock_memory_wf s
  | wideA => simpa [Memory.wf, Wide.wf] using h
  | wideE => simpa [Memory.wf, Wide.wf] using h
  | wideN => simpa [Memory.wf, Wide.wf] using h
  | _ => exact h

/-- A bus write keeps the canonical form (R71, R72). -/
theorem busWrite_memory_wf (off : BitVec 16) (bytes : Nat) (v : Word) {s : State}
    (h : Memory.wf s) : Memory.wf (busWrite off bytes v s) := by
  rcases busWrite_cases off bytes v s with ⟨_, e⟩ | ⟨r, _, e⟩
  · rw [e]; exact h
  · have hw := writeCase_memory_wf h (writeReg_cases s r v)
    rw [e]; exact hw

/-- A command's step keeps the canonical form (R124). -/
theorem execCase_memory_wf {i : Instr} {s t : State} (h : Memory.wf s) (hc : ExecCase i s t) :
    Memory.wf t := by
  cases hc with
  | commits o p l a ha hat hf =>
    refine ⟨h.1, h.2.1, h.2.2.1, ?_⟩
    show Wide.wf s.cfg.nwords (p.r.getD s.regR)
    cases hp : p.r with
    | none => exact h.2.2.2
    | some x =>
      obtain ⟨_, _, v, hv⟩ := hf.r (by simp [hp])
      cases hp.symm.trans hv
      simp [Wide.wf]
  | requests => exact h
  | requestsAgain => exact h

/-- Every step keeps the canonical form. -/
theorem step_memory_wf {s t : State} (h : Memory.wf s) (hs : step s = .next t) : Memory.wf t := by
  cases step_effects hs with
  | nothing e => subst e; exact h
  | command i c hd hr hp hc hi he => exact execCase_memory_wf (s := s.moving) h he
  | illegal c e hd hr hp hc he ht => subst ht; exact h
  | read off bytes rest rsp hd hr hs e => subst e; exact h
  | wait rest script rsp hd hr hs e => subst e; exact h
  | busError off bytes v rest hd hr hs e => subst e; exact h
  | write r v rest u hd hr hs ht hi hu e =>
    subst e
    have hw : Memory.wf u := writeCase_memory_wf (s := { s.moving with script := rest }) h hu
    exact hw
  | answer a hd hr hp e => subst e; exact h
  | rstLow hd e => subst e; exact resetBlock_memory_wf _
  | rstHigh hd e => subst e; exact h
  | powerLoss hd e => subst e; exact resetBlock_memory_wf _

end Sys2Proof.Machine
end

