-- ==== Sys2Proof/Laws/PerInstr.lean ====
section
/-! SUPPORT. The families of statements made per instruction. `RowMatch`: the word of a command
matches its row of the opcode map, and the row is in the map (30_encoding.md R96). -/

namespace Sys2Proof.Laws

open Sys2Proof

/-- A word built from a count, a modifier and an opcode, under the mask of the tests' rows. -/
theorem testWord_and_mask (k : BitVec 16) (m : BitVec 4) (o : BitVec 8) :
    (k ++ (0 : BitVec 4) ++ m ++ o) &&& (0x0000FFFF : Word) =
      (0 : BitVec 16) ++ (0 : BitVec 4) ++ m ++ o := by
  apply BitVec.eq_of_getLsbD_eq
  intro i hi
  have hm : (0x0000FFFF : Word).getLsbD i = decide (i < 16) := by
    revert i; decide
  simp only [BitVec.getLsbD_and, BitVec.getLsbD_append, hm]
  by_cases h8 : i < 8
  · simp [h8, show i < 16 by omega]
  · by_cases h12 : i - 8 < 4
    · simp [h8, h12, show i < 16 by omega]
    · by_cases h16 : i - 8 - 4 < 4
      · simp [h8, h12, h16]
      · simp [h8, h12, h16]; omega

/-- The family's statement: a well-formed command's word matches its own row of the map. -/
def RowMatch.Statement (i : Instr) : Prop :=
  i.WellFormed → i.row ∈ opcodeRows ∧ i.row.Matches (encode i)

theorem RowMatch.nop : RowMatch.Statement .nop := fun _ => by decide

theorem RowMatch.bfInit : RowMatch.Statement .bfInit := fun _ => by decide

theorem RowMatch.bfNextT2 : RowMatch.Statement .bfNextT2 := fun _ => by decide

theorem RowMatch.bfNextT3 : RowMatch.Statement .bfNextT3 := fun _ => by decide

theorem RowMatch.powmod : RowMatch.Statement .powmod := fun _ => by decide

theorem RowMatch.jacobi : RowMatch.Statement .jacobi := fun _ => by decide

theorem RowMatch.mrTestS (k : Nat) : RowMatch.Statement (.mrTestS k) := fun _ => by
  refine ⟨by simp [opcodeRows, Instr.row], ?_⟩
  simp only [OpcodeRow.Matches, Instr.row, encode, testWord_and_mask, Instr.md, Instr.op]; decide

theorem RowMatch.mrTestCA (k : Nat) : RowMatch.Statement (.mrTestCA k) := fun _ => by
  refine ⟨by simp [opcodeRows, Instr.row], ?_⟩
  simp only [OpcodeRow.Matches, Instr.row, encode, testWord_and_mask, Instr.md, Instr.op]; decide

theorem RowMatch.mrTestCO (k : Nat) : RowMatch.Statement (.mrTestCO k) := fun _ => by
  refine ⟨by simp [opcodeRows, Instr.row], ?_⟩
  simp only [OpcodeRow.Matches, Instr.row, encode, testWord_and_mask, Instr.md, Instr.op]; decide

theorem RowMatch.ssTest (k : Nat) : RowMatch.Statement (.ssTest k) := fun _ => by
  refine ⟨by simp [opcodeRows, Instr.row], ?_⟩
  simp only [OpcodeRow.Matches, Instr.row, encode, testWord_and_mask, Instr.md, Instr.op]; decide

end Sys2Proof.Laws
end

