-- ==== Sys2Proof/Laws/Script.lean ====
section
/-! SUPPORT. What a host script shows: the value of the words read, and the transcript of a run
(30_encoding.md R102, R103). -/

namespace Sys2Proof.Machine

open Sys2Proof

/-- R103's sum is the value of the register whose words were read (10_state.md R38). -/
theorem wordSum_data (ws : Wide) (i : Nat) :
    wordSum i (ws.map .data) = some (2 ^ (32 * i) * wideVal ws) := by
  induction ws generalizing i with
  | nil => simp [wordSum]
  | cons w ws ih =>
    have hp : 2 ^ (32 * (i + 1)) = 2 ^ (32 * i) * 2 ^ 32 := by rw [Nat.mul_add, Nat.pow_add]
    simp only [List.map_cons, wordSum, ih, Option.map_some, wideVal_cons, Nat.shiftLeft_eq, hp]
    rw [Nat.mul_add, Nat.mul_assoc, Nat.mul_comm w.toNat]

/-- The value `RDW` shows, when every read answers its word (R103). -/
theorem scriptValue_rdw (x : WideReg) (ws : Wide) :
    scriptValue (.rdw x) (ws.map .data) = some (wideVal ws) := by
  simpa [scriptValue] using wordSum_data ws 0

/-- The value `RD` shows (R102). -/
theorem scriptValue_rd (r : Reg) (w : Word) : scriptValue (.rd r) [.data w] = some w.toNat := by
  simp [scriptValue, wordSum]

@[simp] theorem transcript_zero (s : State) : transcript 0 s = [] := rfl

/-- A step of the host adds its response (20_memory.md R61). -/
theorem transcript_of_host {k : Nat} {s t : State} (h : step s = .next t)
    (hs : s.hostTransacts = true) : transcript (k + 1) s = t.resp.toList ++ transcript k t := by
  simp [transcript, h, hs]

/-- A step of another agent, or of a host with nothing left to do, adds nothing. -/
theorem transcript_of_other {k : Nat} {s t : State} (h : step s = .next t)
    (hs : s.hostTransacts = false) : transcript (k + 1) s = transcript k t := by
  simp [transcript, h, hs]

/-- When the host has the turn and a statement left, the next step is its transaction. -/
theorem hostTransacts_of {s : State} {ts : List Turn} {st : HostStmt} {rest : List HostStmt}
    (ht : s.turns = .host :: ts) (hs : s.script = st :: rest) : s.hostTransacts = true := by
  simp [State.hostTransacts, ht, hs]

/-- A script names only registers that some offset reaches (R102, 10_state.md R20). -/
theorem expandStmt_rd_isSome (c : Config) (r : Reg) :
    (expandStmt c (.rd r)).isSome = r.named c := by
  cases h : r.named c <;> simp [expandStmt, h]

end Sys2Proof.Machine
end

