-- ==== Sys2Proof/Tests/Slice0.lean ====
section
/-! SUPPORT. Tests on small states, their expected values taken from 95_test_vectors.md and the rules'
own examples, and for each statement with hypotheses a state that meets them. -/

namespace Sys2Proof.Tests

open Sys2Proof Sys2Proof.Machine

/-! ## Helpers -/

/-- The smallest configuration, `NBITS = WMAX = 64` (R5, R6). -/
def tiny : Config := ⟨2, 64⟩

/-- Its reset state. -/
def idle0 : State := State.resetWith tiny

/-- The engine after acceptance of a word, from reset, with candidate or modulus `n`. -/
def running (c : Word) (n : Nat) : State := accept c { idle0 with regN := wideOfNat 2 n }

/-- A test waiting for its answer in round `r`. -/
def waiting (c : Word) (n r : Nat) : State :=
  { running c n with phase := .waitWitness, round := r }

/-- A test that has taken the answer `a` in round `r`. -/
def answered (c : Word) (n r a : Nat) : State :=
  { running c n with round := r, ans := some a }

/-- `A`, `E` and `N` loaded. -/
def operands (a e n : Nat) : State :=
  { idle0 with regA := wideOfNat 2 a, regE := wideOfNat 2 e, regN := wideOfNat 2 n }

/-- The host about to perform one statement. -/
def hosting (st : HostStmt) (s : State) : State := { s with script := [st], turns := [.host] }

/-- The block held in reset, an agent about to move. -/
def inReset (u : Turn) : State := { idle0 with rstN := false, script := [.wait], turns := [u] }

/-- A test accepted, the engine and the witness source about to alternate. -/
def drawing (c : Word) (n : Nat) (draws : List Nat) : State :=
  { running c n with turns := drawTurns draws }

/-- A test waiting, an answer about to be presented. -/
def answering (c : Word) (n a : Nat) : State := { waiting c n 0 with turns := [.witness a] }

/-- An idle engine, the host about to load `N`. -/
def loading (v : Nat) : State :=
  { idle0 with script := wrwStmts tiny .n v, turns := [.host, .host] }

/-- The host about to read `N`, an engine turn between its two reads. -/
def reading (v : Nat) : State :=
  { idle0 with
    regN := wideOfNat 2 v, script := rdwStmts tiny .n, turns := [.host, .engine, .host] }

/-- An outcome is a next state with a property. -/
def sat (o : Host.Outcome State Fault Refusal) (p : State → Bool) : Bool :=
  match o with
  | .next t => p t
  | .fault _ => false
  | .refused _ => false

/-- How a command ends: its outcome, `PRIME` and `ROUNDS`. -/
def ends (i : Instr) (n : Nat) (draws : List Nat) : Option (Option ErrCode × Option Bool × Option (BitVec 16)) :=
  (runInstr i { idle0 with regN := wideOfNat 2 n } draws).map
    fun r => (r.outcome, r.pend.prime, r.pend.rounds)

/-! ## Well-formedness: the check refuses a count that does not fit the field (R95, R101) -/

theorem test_wf_refuses_mrTestS : (Instr.mrTestS 65536).wf = false := by decide
theorem test_wf_refuses_mrTestCA : (Instr.mrTestCA 65536).wf = false := by decide
theorem test_wf_refuses_mrTestCO : (Instr.mrTestCO 65536).wf = false := by decide
theorem test_wf_refuses_ssTest : (Instr.ssTest 65536).wf = false := by decide
theorem test_wf_accepts_bounds :
    (Instr.mrTestS 0).wf = true ∧ (Instr.ssTest 65535).wf = true := by decide

/-! ## Decoding: each form from a word written out from R91 and R96 -/

theorem test_decode_nop :
    decode 0b0000000000000000_0000_0000_00000000 = .ok .nop := by decide
theorem test_decode_bfInit :
    decode 0b0000000000000000_0000_0000_00000001 = .ok .bfInit := by decide
theorem test_decode_bfNextT2 :
    decode 0b0000000000000000_0000_0000_00000010 = .ok .bfNextT2 := by decide
theorem test_decode_bfNextT3 :
    decode 0b0000000000000000_0000_0001_00000010 = .ok .bfNextT3 := by decide
theorem test_decode_powmod :
    decode 0b0000000000000000_0000_0000_00010000 = .ok .powmod := by decide
theorem test_decode_jacobi :
    decode 0b0000000000000000_0000_0000_00010001 = .ok .jacobi := by decide
theorem test_decode_mrTestS :
    decode 0b0000000000000011_0000_0000_00100000 = .ok (.mrTestS 3) := by decide
theorem test_decode_mrTestCA :
    decode 0b0000000000001010_0000_0001_00100000 = .ok (.mrTestCA 10) := by decide
theorem test_decode_mrTestCO :
    decode 0b1000000000000000_0000_0010_00100000 = .ok (.mrTestCO 32768) := by decide
theorem test_decode_ssTest :
    decode 0b1111111111111111_0000_0000_00100001 = .ok (.ssTest 65535) := by decide

/-- The illegal words of CT-3, BF-11, MR-7 and SS-10. -/
theorem test_decode_refuses :
    decode 0x00000003 = .error .reservedOpcode ∧ decode 0x00010010 = .error .strayCount ∧
    decode 0x00001011 = .error .reservedBits ∧ decode 0x00000110 = .error .badModifier ∧
    decode 0x000000FF = .error .reservedOpcode ∧ decode 0xFFFFFFFF = .error .reservedBits ∧
    decode 0x00000202 = .error .badModifier ∧ decode 0x00010001 = .error .strayCount ∧
    decode 0x000A0320 = .error .badModifier ∧ decode 0x000A1020 = .error .reservedBits ∧
    decode 0x000A0121 = .error .badModifier := by decide

/-- Little-endian lanes (R62): the first byte of `0x000A0120` is `0x20`. -/
theorem test_decodeBytes_lanes :
    decodeBytes [0x20, 0x01, 0x0A, 0x00, 0x55] = .ok (.mrTestCA 10, [0x55]) ∧
    decodeBytes [0x20, 0x01, 0x0A] = .error .tooShort := by decide

theorem test_decodeTableWord :
    decodeTableWord 32 0x00000220 = some (.mrTestCO 0) ∧ decodeTableWord 32 0x00000320 = none ∧
    decodeTableWord 16 0x00FF0021 = some (.ssTest 0) := by decide

/-! ## The assembler and the script (R101, R103) -/

theorem test_assemble_defaults :
    assemble "MR_TEST".toList = some 0x000A0020 ∧ assemble "SS_TEST 3".toList = some 0x00030021 ∧
    assemble "BF_NEXT".toList = some 0x00000002 ∧
    assemble "MR_TEST.CA 0x10".toList = some 0x00100120 ∧
    assemble "SS_TEST 65536".toList = none ∧ assemble "POWMOD 1".toList = none := by decide

theorem test_expand_run_and_ack :
    expandScript tiny [.run (.mrTestS 2), .ack] =
      some [.write 0x010 4 0x00020020, .wait, .write 0x00C 4 0x00000002] ∧
    expandStmt tiny (.wrw .n (5 + 2 ^ 32)) = some [.write 0x3000 4 5, .write 0x3004 4 1] ∧
    expandStmt tiny (.wrw .n (2 ^ 64)) = none ∧
    expandStmt tiny (.issue (.ssTest 65536)) = none := by decide

/-- `X[i]` is a name for `i < NWORDS` only (log 21). -/
theorem test_expand_names :
    expandStmt tiny (.wr (.wide .a 1) 7) = some [.write 0x1004 4 7] ∧
    expandStmt tiny (.wr (.wide .a 2) 7) = none ∧ expandStmt tiny (.rd (.wide .r 2)) = none ∧
    expandStmt tiny (.rd .rounds) = some [.read 0x020 4] := by decide

/-- R103's sum, the engine's turn between the two reads: `0x1122334455667788`. -/
theorem test_rdw_value :
    transcript 3 (reading 0x1122334455667788) = [.data 0x55667788, .data 0x11223344] ∧
    scriptValue (.rdw .n) [.data 0x55667788, .data 0x11223344] = some 0x1122334455667788 ∧
    scriptValue (.rdw .n) [.data 5, .busError] = none := by decide

/-! ## One step of each command -/

/-- The first step from reset with a fetched NOP: `STATUS` = 0x02 (CT-2). -/
theorem test_step_nop_from_reset :
    sat (step (State.reset.withFetchWord 32 0x00000000)) (fun t => t.statusWord == 0x00000002) =
      true := by decide

/-- CT-4: the NOP clears `ERR` and leaves `OVR` set. -/
theorem test_nop_clears_err :
    sat (exec .nop (accept 0 { idle0 with done := true, err := true, ovr := true, errcode := 1 }))
      (fun t => t.statusWord == 0x00000042) = true := by decide

/-- R140's example. -/
theorem test_bfInit_seed_one :
    sat (exec .bfInit { idle0 with bfSeed := 1 }) (fun t => readReg t .bfState == 0x00000001) =
      true := by decide

/-- BF-5: `W = 40`, words 0 and 1 of `R`, the next `XS`. -/
theorem test_bfNextT2_w40 :
    sat (exec .bfNextT2 { idle0 with bfWsize := 40 })
      (fun t => t.regR == [0xD3D85AD7, 0x000000A3] && t.xs == 0xD28AB0E1) = true := by decide

/-- BF-2: `W = 3`. -/
theorem test_bfNextT2_w3 :
    sat (exec .bfNextT2 { idle0 with bfWsize := 3 })
      (fun t => t.regR == [0x6, 0] && t.xs == 0x7B0859A0) = true := by decide

/-- BF-6: `W = 40`. -/
theorem test_bfNextT3_w40 :
    sat (exec .bfNextT3 { idle0 with bfWsize := 40 })
      (fun t => t.regR == [0xA6CA182B, 0x000000D6] && t.xs == 0xD28AB0E1) = true := by decide

/-- BF-11 at `WMAX = 64`: a width of `WMAX + 1` is refused and changes no result. -/
theorem test_bfNextT3_width_error :
    sat (exec .bfNextT3 { idle0 with bfWsize := 65 })
      (fun t => t.statusWord == 0x00000206 && t.xs == 0x92D68CA2) = true := by decide

/-- PM-1. -/
theorem test_powmod_497 :
    sat (exec .powmod (operands 4 13 497))
      (fun t => t.regR == [445, 0] && t.statusWord == 0x00000002) = true := by decide

/-- PM-10 and PM-6: a Fermat liar for 561, and `A >= N`. -/
theorem test_powmod_liar_and_reduction :
    sat (exec .powmod (operands 7 560 561)) (fun t => wideVal t.regR == 1) = true ∧
    sat (exec .powmod (operands 10 3 7)) (fun t => wideVal t.regR == 6) = true := by decide

/-- JC-1. -/
theorem test_jacobi_minus :
    sat (exec .jacobi (operands 1001 0 9907))
      (fun t => t.regR == [9906, 0] && t.statusWord == 0x00000032) = true := by decide

/-- JC-18: an even modulus. -/
theorem test_jacobi_even :
    sat (exec .jacobi (operands 3 0 10)) (fun t => t.statusWord == 0x00000506) = true := by decide

/-- MR-1: witness 2 fails for 561 and ends the test with `ROUNDS` = 1. -/
theorem test_mrTestS_561 :
    sat (exec (.mrTestS 3) (answered 0x00030020 561 0 2))
      (fun t => t.prime == false && t.rounds == 1 && t.statusWord == 0x00000002) = true := by decide

/-- MR-7: 96 is out of range for `N = 97` in round 1. -/
theorem test_mrTestS_out_of_range :
    sat (exec (.mrTestS 2) (answered 0x00020020 97 1 96))
      (fun t => t.statusWord == 0x00000606 && t.rounds == 1) = true := by decide

/-- MR-2, policy CA: fail, pass, fail. -/
theorem test_mrTestCA_561 : ends (.mrTestCA 3) 561 [2, 50, 100] = some (none, some false, some 3) := by
  decide

/-- MR-5, policy CA. -/
theorem test_mrTestCA_97 : ends (.mrTestCA 3) 97 [2, 50, 95] = some (none, some true, some 3) := by
  decide

/-- MR-2, policy CO. -/
theorem test_mrTestCO_561 : ends (.mrTestCO 3) 561 [2, 50, 100] = some (none, some true, some 3) := by
  decide

/-- MR-6: 4 is refused without a draw. -/
theorem test_mrTestCO_edge : ends (.mrTestCO 10) 4 [] = some (none, some false, some 0) := by decide

/-- SS-1: witness 2 passes, witness 5 fails. -/
theorem test_ssTest_561 : ends (.ssTest 3) 561 [2, 5] = some (none, some false, some 2) := by decide

/-- SS-5: 2 is an Euler liar for 2047. -/
theorem test_ssTest_2047 :
    sat (exec (.ssTest 1) (answered 0x00010021 2047 0 2))
      (fun t => t.prime && t.rounds == 1 && t.statusWord == 0x0000000A) = true := by decide

/-! ## The register space and the lifecycle -/

/-- CT-1: reset reads in the reference configuration. -/
theorem test_reset_reads :
    busRead State.reset 0x000 4 = .data 0x504D4F44 ∧
    busRead State.reset 0x004 4 = .data 0x10000080 ∧
    busRead State.reset 0x018 4 = .data 0x92D68CA2 ∧ busRead State.reset 0x01C 4 = .data 0x92D68CA2 ∧
    busRead State.reset 0x41FC 4 = .data 0 ∧ busRead State.reset 0x4200 4 = .busError := by
  decide +kernel

/-- CT-5. -/
theorem test_status_w1c :
    (busWrite 0x00C 4 0xFFFFFFFF { idle0 with done := true, prime := true }).statusWord =
      0x00000008 := by decide

/-- CT-6: the busy lock while a witness is awaited. -/
theorem test_busy_lock :
    busRead (waiting 0x00020020 97 0) 0x00C 4 = .data 0x00000081 ∧
    busRead (busWrite 0x3000 4 5 (waiting 0x00020020 97 0)) 0x00C 4 = .data 0x000000C1 ∧
    busRead (busWrite 0x010 4 0 (waiting 0x00020020 97 0)) 0x010 4 = .data 0x00020020 := by decide

/-- R62: byte lanes of `ID`, little-endian. -/
theorem test_byte_lanes :
    spaceByte idle0 0x000 = some 0x44 ∧ spaceByte idle0 0x003 = some 0x50 ∧
    spaceByte idle0 0x024 = none := by decide

/-- XS-2. -/
theorem test_xsStep_masks :
    xsStep 0xFFFFFFFF = (0x00001FFF, 0x0003E01F) ∧ xsStep 0x80000000 = (0x80004000, 0x80084000) := by
  decide

/-! ## States that meet the hypotheses of the statements -/

/-- The four tests with a count. -/
def testForms (k : Nat) : List Instr := [.mrTestS k, .mrTestCA k, .mrTestCO k, .ssTest k]

theorem witness_ResetLeavesSpecValues :
    tiny.Ok ∧ Config.Ok ⟨2, 1⟩ ∧ Config.Ok ⟨1024, 32768⟩ ∧ idle0 = State.resetWith tiny := by decide

theorem witness_SoftResetWriteResetsTheBlock :
    (0x80000000 : Word).getLsbD 31 = true ∧ (waiting 0x00020020 97 0).phase = .waitWitness ∧
    (hostStmt (.write 0x008 4 0x80000001) [] (waiting 0x00020020 97 0)).phase ≠ .waitWitness := by
  decide

theorem witness_HardwareResetHoldsTheResetState :
    ({ idle0 with turns := [.rstLow] } : State).turns = .rstLow :: [] ∧
    ({ idle0 with turns := [.powerLoss] } : State).turns = .powerLoss :: [] ∧
    ({ idle0 with turns := [.rstHigh] } : State).turns = .rstHigh :: [] ∧
    (inReset .engine).rstN = false ∧ (inReset .engine).turns = .engine :: [] ∧
    (inReset (.witness 5)).rstN = false ∧ (inReset (.witness 5)).turns = .witness 5 :: [] ∧
    (inReset .host).rstN = false ∧ (inReset .host).turns = .host :: [] ∧
    (inReset .host).script ≠ [] := by decide

theorem witness_ReadReturnsCurrentValueOnly :
    (hosting (.read 0x3004 4) idle0).rstN = true ∧
    (hosting (.read 0x3004 4) idle0).turns = .host :: [] ∧
    (hosting (.read 0x3004 4) idle0).script = .read 0x3004 4 :: [] ∧
    regAt tiny 0x3004 = some (.wide .n 1) ∧ regAt tiny 0x3008 = none ∧ regAt tiny 0x00D = none ∧
    1 < (hosting (.read 0x3004 4) idle0).cfg.nwords := by
  decide

theorem witness_WindowsReachTheirWords :
    tiny.Ok ∧ 1 < tiny.nwords ∧ tiny.nwords ≤ 2 ∧ 1023 < 1024 ∧
    0x24 ≤ (0x24 : BitVec 16).toNat ∧ (0xFFC : BitVec 16).toNat < 0x1000 ∧
    0x5000 ≤ (0x5000 : BitVec 16).toNat := by decide

theorem witness_BusErrorChangesNothing :
    idle0.cfg.Ok ∧ 2 ≠ 4 ∧ (0x00D : BitVec 16).toNat % 4 ≠ 0 ∧
    0x24 ≤ (0x024 : BitVec 16).toNat ∧ (0xFFC : BitVec 16).toNat < 0x1000 ∧
    0x5000 ≤ (0xFFFC : BitVec 16).toNat ∧
    WideReg.n.base + 4 * idle0.cfg.nwords ≤ (0x3008 : BitVec 16).toNat ∧
    (0x3FFC : BitVec 16).toNat < WideReg.n.base + 0x1000 := by decide

theorem witness_ReadOnlyRegistersIgnoreWrites :
    idle0.cfg.Ok ∧ 1 < idle0.cfg.nwords ∧ (0x7FFFFFFF : Word).getLsbD 31 = false ∧
    idle0.busy = false := by decide

theorem witness_BusyLockDropsWrites :
    (waiting 0x00020020 97 0).cfg.Ok ∧ (waiting 0x00020020 97 0).busy = true ∧
    (0x00000001 : Word).getLsbD 31 = false ∧ WideReg.n ≠ WideReg.r ∧ 1 < tiny.nwords ∧
    sat (step (hosting (.write 0x3000 4 5) (waiting 0x00020020 97 0))) (fun t => t.busy) = true := by
  decide

theorem witness_IdleOperandWriteStoresOneWord :
    idle0.cfg.Ok ∧ idle0.busy = false ∧ WideReg.a ≠ WideReg.r ∧ 1 < idle0.cfg.nwords ∧
    Wide.wf idle0.cfg.nwords (idle0.wide .a) ∧ 3 < 4 ∧
    (0x1000 : BitVec 16).toNat < (0x1004 : BitVec 16).toNat ∧
    (0x1004 : BitVec 16).toNat + 4 ≤ (0x1008 : BitVec 16).toNat := by decide

theorem witness_StatusWriteClearsDoneAndOvr :
    ({ idle0 with done := true, prime := true, ovr := true } : State).statusWord = 0x0000004A := by
  decide

theorem witness_CtrlWriteSetsIrqEnable :
    (0x00000001 : Word).getLsbD 31 = false ∧ (0x80000001 : Word).getLsbD 31 = true := by decide

theorem witness_IdentificationIsConstant :
    idle0.cfg.Ok ∧ sat (step idle0) (fun _ => true) = true := by decide

theorem witness_DecodeOfEncodeIsIdentity :
    (Instr.mrTestS 0).WellFormed ∧ (Instr.ssTest 65535).WellFormed := by decide

theorem witness_EncodeOfDecodedIsTheWord : decode 0xFFFF0220 = .ok (.mrTestCO 65535) := by decide

theorem witness_LegalWordsMatchARow : legal 0xFFFF0220 = true ∧ legal 0x00000320 = false := by decide

theorem witness_OpcodeRowsAreDisjoint :
    (Instr.mrTestCO 65535).row ∈ opcodeRows ∧ (Instr.mrTestCO 65535).row.Matches 0xFFFF0220 := by
  decide

theorem witness_AssembledWordLayout :
    (Instr.mrTestCO 0).WellFormed ∧ (Instr.mrTestCO 65535).WellFormed := by decide

theorem witness_AcceptanceWrites : idle0.busy = false := by decide

theorem witness_BusyRisesAndFallsOnlyAsStated :
    idle0.busy = false ∧
    sat (step (hosting (.write 0x010 4 0x00000010) idle0)) (fun t => t.busy) = true ∧
    (running 0 0).busy = true ∧ sat (step (running 0 0)) (fun t => !t.busy) = true ∧
    sat (step (hosting (.write 0x008 4 0x80000000) (running 0 0))) (fun t => !t.busy) = true := by
  decide

theorem witness_EngineTurnRunsTheDecodedCommand :
    (running 0x00020020 97).rstN = true ∧ (running 0x00020020 97).phase = .run ∧
    (running 0x00020020 97).cur = some 0x00020020 ∧ (running 0x00020020 97).turns = [] ∧
    decode 0x00020020 = .ok (.mrTestS 2) ∧
    ({ running 0x00020020 97 with turns := [.engine] } : State).turns = .engine :: [] ∧
    decode (BitVec.ofNat 32 (0x00020020 % 2 ^ 32)) = .ok (.mrTestS 2) := by decide

theorem witness_IllegalWordCommitsError :
    (running 0x00000003 0).rstN = true ∧ (running 0x00000003 0).phase = .run ∧
    (running 0x00000003 0).cur = some 0x00000003 ∧ legal 0x00000003 = false ∧
    (running 0x00000003 0).turns = [] ∧
    (drawing 0x00000003 0 []).cur = some 0x00000003 ∧
    (drawing 0x00000003 0 []).turns.head? = some .engine := by decide

theorem witness_ErrorCommitWritesOnlyItsSet :
    sat (runWord 0x00000003 (running 0x00000003 0)) (fun t => t.phase == .idle && t.err) = true ∧
    sat (runWord 0x00000020 (running 0x00000020 9)) (fun t => t.errcode == 3) = true ∧
    sat (runWord 0x00010021 (running 0x00010021 0)) (fun t => t.errcode == 4) = true ∧
    sat (runWord 0x00020020 (answered 0x00020020 97 1 96)) (fun t => t.errcode == 6) = true := by
  decide

theorem witness_ResultsChangeOnlyAtCommit :
    sat (step (running 0x00020020 97)) (fun t => t.busy) = true := by decide

theorem witness_CommandsWriteOnlyTheirResults :
    sat (exec .powmod (operands 4 13 497)) (fun t => t.regR != idle0.regR) = true ∧
    sat (exec .bfInit { idle0 with bfSeed := 1 }) (fun t => t.xs != idle0.xs) = true ∧
    sat (exec (.ssTest 1) (operands 0 0 2)) (fun t => t.prime != idle0.prime) = true ∧
    sat (exec .jacobi (operands 1001 0 9907)) (fun t => t.jsym != idle0.jsym) = true ∧
    sat (exec (.mrTestCA 1) (answered 0x00010120 97 0 2)) (fun t => t.rounds != idle0.rounds) =
      true := by decide

theorem witness_OvrIsSticky :
    (running 0 0).busy = true ∧ (0x40 : Word).getLsbD 6 = true ∧
    sat (exec .nop { idle0 with ovr := true }) (fun t => t.ovr) = true ∧
    sat (step (hosting (.write 0x018 4 5) (running 0 0))) (fun t => t.ovr) = true ∧
    (running 0 0).ovr = false ∧
    sat (step (hosting (.write 0x00C 4 0x40) { idle0 with ovr := true })) (fun t => !t.ovr) = true ∧
    sat (step (hosting (.write 0x008 4 0x80000000) { idle0 with ovr := true })) (fun t => !t.ovr) =
      true := by decide

theorem witness_DoneMarksTheCommit :
    (running 0 0).done = false ∧ (running 0 0).phase = .run ∧
    sat (step (running 0 0)) (fun t => t.done && t.phase == .idle) = true ∧
    sat (step (hosting (.write 0x00C 4 0x2) { idle0 with done := true })) (fun t => !t.done) = true ∧
    sat (step (hosting (.write 0x010 4 0) { idle0 with done := true })) (fun t => !t.done) = true ∧
    sat (step { idle0 with done := true, turns := [.rstLow] }) (fun t => !t.done) = true := by decide

theorem witness_IrqRisesAndFallsOnlyAsStated :
    ({ running 0 0 with irqEn := true } : State).irq = false ∧
    sat (step { running 0 0 with irqEn := true }) (fun t => t.irq) = true ∧
    sat (step (hosting (.write 0x008 4 1) { idle0 with done := true })) (fun t => t.irq) = true ∧
    ({ idle0 with done := true, irqEn := true } : State).irq = true ∧
    sat (step (hosting (.write 0x008 4 0) { idle0 with done := true, irqEn := true }))
      (fun t => !t.irq) = true ∧
    sat (step (hosting (.write 0x00C 4 2) { idle0 with done := true, irqEn := true }))
      (fun t => !t.irq) = true ∧
    sat (step (hosting (.write 0x010 4 0) { idle0 with done := true, irqEn := true }))
      (fun t => !t.irq) = true ∧
    sat (step { idle0 with done := true, irqEn := true, turns := [.powerLoss] })
      (fun t => !t.irq) = true := by decide

theorem witness_NopCommitsNothing :
    opField 0x00010000 = 0 ∧ (0x00010000 : Word) ≠ 0 ∧
    ({ idle0 with done := true, err := true, ovr := true, errcode := 1 } : State).statusWord =
      0x00000146 := by decide

theorem witness_BfNextFoldsTheStream :
    idle0.bfWsize.toNat = 0 ∧
    idle0.cfg.wmax < ({ idle0 with bfWsize := 65 } : State).bfWsize.toNat ∧
    ({ idle0 with bfWsize := 64 } : State).bfWsize.toNat ≠ 0 ∧
    ({ idle0 with bfWsize := 64 } : State).bfWsize.toNat ≤ idle0.cfg.wmax ∧
    ({ idle0 with bfWsize := 1 } : State).bfWsize.toNat = 1 ∧
    idle0.cfg.wmax ≤ idle0.cfg.nbits ∧ 63 < 64 := by decide

theorem witness_XorshiftStepOnNaturals :
    ((1 : Word).toNat ^^^ ((1 : Word).toNat * 2 ^ 13)) % 2 ^ 32 = 8193 ∧
    8193 ^^^ (8193 / 2 ^ 17) = 8193 ∧ (8193 ^^^ (8193 * 2 ^ 5)) % 2 ^ 32 = 0x00042021 := by decide

theorem witness_BfNextMultipleOf32Concatenates :
    ({ idle0 with bfWsize := 64 } : State).bfWsize.toNat = 32 * 2 ∧
    ({ idle0 with bfWsize := 32 } : State).bfWsize.toNat = 32 * 1 ∧ 32 * 2 ≤ idle0.cfg.wmax ∧
    idle0.cfg.wmax ≤ idle0.cfg.nbits ∧ 1 < 2 ∧ 2 ≤ 2 := by decide

theorem witness_BfNextCornerCases :
    ({ idle0 with bfWsize := 1 } : State).bfWsize.toNat = 1 ∧ 1 ≤ idle0.cfg.wmax ∧
    1 ≤ idle0.cfg.nwords ∧
    ({ idle0 with bfWsize := 40, xs := 0 } : State).xs = 0 ∧
    ({ idle0 with bfWsize := 40, xs := 0 } : State).bfWsize.toNat ≤ idle0.cfg.wmax ∧
    sat (exec .bfNextT2 { idle0 with bfWsize := 1 }) (fun _ => true) = true ∧
    sat (exec .bfNextT3 { idle0 with bfWsize := 1 }) (fun _ => true) = true := by decide

theorem witness_PowmodCommitsThePower :
    (operands 4 13 0).valN = 0 ∧ (operands 4 13 497).valN ≠ 0 ∧
    Wide.wf (operands 4 13 497).cfg.nwords (operands 4 13 497).regN := by decide

theorem witness_JacobiCommitsTheSymbol :
    (operands 3 0 0).valN = 0 ∧ (operands 3 0 10).valN % 2 = 0 ∧ (operands 3 0 1).valN % 2 = 1 ∧
    Wide.wf (operands 3 0 1).cfg.nwords (operands 3 0 1).regN := by decide

theorem witness_PowmodCornerCases :
    sat (exec .powmod (operands 5 0 1)) (fun _ => true) = true ∧ (operands 5 0 1).valN = 1 ∧
    (operands 5 0 2).valE = 0 ∧ 2 ≤ (operands 5 0 2).valN ∧
    (operands 497 5 497).valA % (operands 497 5 497).valN = 0 ∧ 1 ≤ (operands 497 5 497).valE ∧
    (operands 1 5 7).valA % (operands 1 5 7).valN = 1 ∧ (operands 9 1 7).valE = 1 ∧
    (operands (2 ^ 64 - 2) 2 (2 ^ 64 - 1)).valA = 2 ^ tiny.nbits - 2 ∧
    (operands (2 ^ 64 - 2) 2 (2 ^ 64 - 1)).valN = 2 ^ tiny.nbits - 1 ∧
    (operands (2 ^ 64 - 2) 2 (2 ^ 64 - 1)).valE = 2 := by decide

theorem witness_MrRoundIsTheWitnessCondition :
    561 % 2 = 1 ∧ 5 ≤ 561 ∧ 2 ≤ 559 ∧ 559 ≤ 561 - 2 ∧ 561 - 1 = 2 ^ 4 * 35 ∧ 35 % 2 = 1 ∧
    5 - 1 = 2 ^ 2 * 1 ∧ mrRound 5 2 = true ∧ mrRound 5 3 = true ∧ mrRound 561 2 = false ∧
    mrRound 561 511 = true := by decide

theorem witness_SsRoundIsTheEulerCondition :
    5 % 2 = 1 ∧ 2 ≤ 5 - 2 ∧ 3 ≤ 5 - 2 ∧ ssRound 5 2 = true ∧ ssRound 561 5 = false ∧
    ssRound 9 3 = false := by decide

theorem witness_TestsCheckCountThenCandidate :
    (testForms 0).all (fun i => i.isTest && i.count == 0) = true ∧
    (testForms 1).all (fun i => i.isTest && i.count != 0) = true ∧
    (operands 0 0 0).valN = 0 ∧ (operands 0 0 0).ans = none := by decide

theorem witness_TestsFollowTheEdgePolicy :
    (testForms 10).all (fun i => i.isTest && i.count != 0) = true ∧ idle0.ans = none ∧
    (operands 0 0 1).valN = 1 ∧ (operands 0 0 2).valN = 2 ∧ (operands 0 0 3).valN = 3 ∧
    4 ≤ (operands 0 0 4).valN ∧ (operands 0 0 4).valN % 2 = 0 := by decide

theorem witness_TestsRequestTheFirstWitness :
    (testForms 1).all (fun i => i.isTest && i.count != 0) = true ∧ (operands 0 0 5).ans = none ∧
    (operands 0 0 5).valN % 2 = 1 ∧ 5 ≤ (operands 0 0 5).valN := by decide

theorem witness_OutOfRangeWitnessEndsTheTest :
    (testForms 2).all Instr.isTest = true ∧ (answered 0x00020020 97 1 96).ans = some 96 ∧
    (answered 0x00020020 97 1 96).valN - 2 < 96 ∧ (answered 0x00020020 97 0 1).ans = some 1 ∧
    1 < 2 := by decide

theorem witness_MrTestSRejectsAtFirstFail :
    (answered 0x00020020 97 0 95).ans = some 95 ∧ 95 ≤ (answered 0x00020020 97 0 95).valN - 2 ∧
    mrRound (answered 0x00020020 561 0 2).valN 2 = false ∧
    mrRound (answered 0x00020020 97 0 95).valN 95 = true ∧
    (answered 0x00020020 97 0 95).round + 1 < 2 ∧ 2 ≤ (answered 0x00020020 97 1 95).round + 1 := by
  decide

theorem witness_MrTestCACollectsAll :
    (answered 0x00020120 561 0 2).ans = some 2 ∧ 2 ≤ (answered 0x00020120 561 0 2).valN - 2 ∧
    (answered 0x00020120 561 0 2).round + 1 < 2 ∧
    2 ≤ (answered 0x00020120 561 1 2).round + 1 ∧
    (false = true ↔ ∀ q ∈ (answered 0x00020120 561 1 2).acc ++ [mrRound 561 2], q = true) := by decide

theorem witness_MrTestCOCollectsAny :
    (answered 0x00020220 561 0 50).ans = some 50 ∧ 50 ≤ (answered 0x00020220 561 0 50).valN - 2 ∧
    (answered 0x00020220 561 0 50).round + 1 < 2 ∧
    2 ≤ (answered 0x00020220 561 1 50).round + 1 ∧
    (true = true ↔ ∃ q ∈ (answered 0x00020220 561 1 50).acc ++ [mrRound 561 50], q = true) := by
  decide

theorem witness_SsTestRejectsAtFirstFail :
    (answered 0x00020021 561 0 5).ans = some 5 ∧ 5 ≤ (answered 0x00020021 561 0 5).valN - 2 ∧
    ssRound (answered 0x00020021 561 0 5).valN 5 = false ∧
    ssRound (answered 0x00020021 561 0 2).valN 2 = true ∧
    (answered 0x00020021 561 0 2).round + 1 < 2 ∧ 2 ≤ (answered 0x00020021 561 1 2).round + 1 := by
  decide

theorem witness_PoliciesCompareAsStated :
    1 ≤ 2 ∧ [2, 3].length = 2 ∧ (operands 0 0 5).valN % 2 = 1 ∧ 5 ≤ (operands 0 0 5).valN ∧
    ∀ a ∈ [2, 3], 2 ≤ a ∧ a ≤ (operands 0 0 5).valN - 2 := by decide

theorem witness_PrimesAreProbablyPrime :
    (testForms 2).all (fun i => i.isTest && 1 ≤ i.count && i.count == [2, 3].length) = true ∧
    (operands 0 0 5).valN.Prime ∧ 5 ≤ (operands 0 0 5).valN ∧
    ∀ a ∈ [2, 3], 2 ≤ a ∧ a ≤ (operands 0 0 5).valN - 2 := by
  refine ⟨by decide, ?_, by decide, by decide⟩
  rw [show (operands 0 0 5).valN = 5 by decide]; norm_num

theorem witness_StepsRefineTheCommandFunction :
    (drawing 0x00020020 97 [2, 95]).rstN = true ∧ (drawing 0x00020020 97 [2, 95]).phase = .run ∧
    (drawing 0x00020020 97 [2, 95]).cur = some 0x00020020 ∧
    (drawing 0x00020020 97 [2, 95]).ans = none ∧ (drawing 0x00020020 97 [2, 95]).round = 0 ∧
    (drawing 0x00020020 97 [2, 95]).acc = [] ∧
    (∀ a ∈ [2, 95], a < 2 ^ (drawing 0x00020020 97 [2, 95]).cfg.nbits) ∧
    runCommand (drawing 0x00020020 97 [2, 95]) 0x00020020 [2, 95] =
      some ⟨none, { prime := some true, rounds := some 2 }, [2, 95].length⟩ ∧
    (drawing 0x00020020 97 [2, 95]).turns = drawTurns [2, 95] ++ [] := by decide

theorem witness_WitnessAnswersNeedARequest :
    ({ idle0 with turns := [.witness 5] } : State).turns = .witness 5 :: [] ∧
    ({ idle0 with turns := [.witness 5] } : State).wreq = false ∧
    (answering 0x00020020 97 5).turns = .witness 5 :: [] ∧
    (answering 0x00020020 97 5).wreq = true ∧ (answering 0x00020020 97 5).rstN = true := by decide

theorem witness_WitnessWaitEndsOnlyByAnswerOrReset :
    (waiting 0x00020020 97 0).phase = .waitWitness ∧ (waiting 0x00020020 97 0).turns = [] ∧
    sat (step { waiting 0x00020020 97 0 with turns := [.witness 5] })
      (fun t => t.phase != .waitWitness) = true ∧
    sat (step (hosting (.write 0x008 4 0x80000000) (waiting 0x00020020 97 0)))
      (fun t => t.phase != .waitWitness) = true ∧
    sat (step { waiting 0x00020020 97 0 with turns := [.rstLow] })
      (fun t => t.phase != .waitWitness) = true ∧
    sat (step { waiting 0x00020020 97 0 with turns := [.powerLoss] })
      (fun t => t.phase != .waitWitness) = true := by decide

theorem witness_InvariantHoldsAtReset : Config.Ok ⟨2, 1⟩ ∧ Config.Ok ⟨1024, 32768⟩ := by decide

/-- A test that waits for a witness meets the invariant, and its step goes on. -/
theorem witness_EveryStepKeepsTheInvariant :
    (answering 0x00020020 97 5).Inv ∧
    sat (step (answering 0x00020020 97 5)) (fun _ => true) = true := by
  refine ⟨?_, by decide⟩
  have hd : (answering 0x00020020 97 5).Drawing :=
    ⟨⟨.mrTestS 2, by decide, by decide, by decide⟩, by decide, by decide⟩
  constructor <;> first | exact fun _ => hd | decide

theorem witness_StepsStopOnlyOnHostMovesInReset :
    (hosting .wait { idle0 with rstN := false }).HostMovesInReset ∧ ¬ idle0.HostMovesInReset := by
  decide

theorem witness_EngineIgnoresTheHostSide :
    sat (engineTurn (running 0x00000010 497)) (fun t => t.done) = true := by decide

theorem witness_WrwLoadsTheRegister :
    (loading (2 ^ 64 - 1)).cfg.Ok ∧ (loading (2 ^ 64 - 1)).rstN = true ∧
    (loading (2 ^ 64 - 1)).busy = false ∧ WideReg.n ≠ WideReg.r ∧
    Wide.wf (loading (2 ^ 64 - 1)).cfg.nwords ((loading (2 ^ 64 - 1)).wide .n) ∧
    2 ^ 64 - 1 < 2 ^ (loading (2 ^ 64 - 1)).cfg.nbits ∧
    (loading (2 ^ 64 - 1)).script = wrwStmts (loading (2 ^ 64 - 1)).cfg .n (2 ^ 64 - 1) ++ [] ∧
    (loading (2 ^ 64 - 1)).turns = List.replicate (loading (2 ^ 64 - 1)).cfg.nwords .host ++ [] := by
  decide

theorem witness_WaitPollsUntilDone :
    (hosting .wait idle0).rstN = true ∧ (hosting .wait idle0).turns = .host :: [] ∧
    (hosting .wait idle0).script = .wait :: [] ∧ (hosting .wait idle0).done = false ∧
    (hosting .wait { idle0 with done := true }).done = true := by decide

/-- The running engine of a test is read over the bus as well as an idle one. -/
theorem witness_RdwShowsTheRegister :
    ({ running 0x00030020 91 with script := rdwStmts tiny .n, turns := [.host, .host] }).cfg.Ok ∧
    ({ running 0x00030020 91 with script := rdwStmts tiny .n, turns := [.host, .host] }).rstN = true ∧
    Wide.wf tiny.nwords ((running 0x00030020 91).wide .n) ∧
    rdwStmts tiny .n = rdwStmts (running 0x00030020 91).cfg .n ++ [] ∧
    [Turn.host, .host] = List.replicate (running 0x00030020 91).cfg.nwords .host ++ [] := by
  decide

end Sys2Proof.Tests
end

section
/-! ## The `ID` and `PARAM` constants and the sticky `OVR` (10_state.md R22, R23, R31) -/

namespace Sys2Proof.Machine

open Sys2Proof

/-! ### The configuration is constant (R5, R6) -/

theorem writeCase_cfg {s t : State} {r : Reg} {v : Word} (h : WriteCase s r v t) :
    t.cfg = s.cfg := by
  cases h <;> rfl

theorem execCase_cfg {i : Instr} {s t : State} (h : ExecCase i s t) : t.cfg = s.cfg := by
  cases h <;> rfl

/-- No step changes the parameters (R5, R6). -/
theorem step_cfg {s t : State} (h : step s = .next t) : t.cfg = s.cfg := by
  cases step_effects h with
  | command i c hd hr hp hc hi he => exact (execCase_cfg he :)
  | write r v rest u hd hr hs ht hi hu e => subst e; exact (writeCase_cfg hu :)
  | nothing e | illegal _ _ _ _ _ _ _ e | read _ _ _ _ _ _ _ e | wait _ _ _ _ _ _ e
  | busError _ _ _ _ _ _ _ e | answer _ _ _ _ e | rstLow _ e | rstHigh _ e | powerLoss _ e =>
    subst e; rfl

/-- Bits 15:0 of `PARAM` are `NWORDS` (R23). -/
theorem param_low_half {s : State} (h : s.cfg.Ok) :
    ((readReg s .param).extractLsb' 0 16).toNat = s.cfg.nwords := by
  obtain ⟨-, hwords, -⟩ := h
  rw [readReg, BitVec.extractLsb'_append_eq_right, BitVec.toNat_ofNat]
  omega

/-- Bits 31:16 of `PARAM` are `WMAX` (R23). -/
theorem param_high_half {s : State} (h : s.cfg.Ok) :
    ((readReg s .param).extractLsb' 16 16).toNat = s.cfg.wmax := by
  obtain ⟨-, -, -, -, hwmax⟩ := h
  rw [readReg, BitVec.extractLsb'_append_eq_left, BitVec.toNat_ofNat]
  omega

/-- `PARAM` depends on the configuration only (R23). -/
theorem readReg_param_congr {s t : State} (h : t.cfg = s.cfg) :
    readReg t .param = readReg s .param := by
  rw [readReg, readReg, h]

/-- Settles O12: `PARAM` is a view of the configuration, which `step_cfg` keeps. -/
theorem identificationIsConstant : Obligations.IdentificationIsConstant := by
  refine ⟨fun _ => rfl, fun s hok => ⟨?_, param_high_half hok⟩,
    fun s t hs => readReg_param_congr (step_cfg hs), by decide⟩
  rw [param_low_half hok, Config.nbits, Nat.mul_div_cancel_left _ (by decide)]

/-! ### What sets and clears `OVR` (R31) -/

/-- The registers under the busy lock: `CMD` and the operand registers (R121, R123). -/
abbrev Reg.Locked (r : Reg) : Prop :=
  r = .cmd ∨ r = .bfWsize ∨ r = .bfSeed ∨ ∃ (x : WideReg) (i : Nat), x ≠ .r ∧ r = .wide x i

/-- The busy lock on a register write (R121, R123). -/
theorem writeReg_of_locked {s : State} {r : Reg} (v : Word) (hb : s.busy = true)
    (hr : r.Locked) : writeReg r v s = dropWrite s := by
  rcases hr with rfl | rfl | rfl | ⟨x, i, hx, rfl⟩
  · exact unlessBusy_busy _ hb
  · exact unlessBusy_busy _ hb
  · exact unlessBusy_busy _ hb
  · cases x with
    | a | e | n => exact unlessBusy_busy _ hb
    | r => exact absurd rfl hx

/-- Offset 0x00C reaches `STATUS` in every configuration (R20). -/
theorem busTarget_status (c : Config) : busTarget c 0x00C 4 = some .status := rfl

/-- A `STATUS` write with bit 6 set clears `OVR` (R128). -/
theorem writeStatus_ovr_of_one {v : Word} (s : State) (hv : v.getLsbD 6 = true) :
    (writeStatus v s).ovr = false := by
  rw [writeStatus_ovr, hv, Bool.not_true, Bool.and_false]

/-- A `STATUS` write with bit 6 clear leaves `OVR` (R128). -/
theorem writeStatus_ovr_of_zero {v : Word} (s : State) (hv : v.getLsbD 6 = false) :
    (writeStatus v s).ovr = s.ovr := by
  rw [writeStatus_ovr, hv, Bool.not_false, Bool.and_true]

/-- What a register write can do to `OVR`. -/
inductive OvrWrite (s : State) (r : Reg) (v : Word) (t : State) : Prop where
  | kept (h : t.ovr = s.ovr)
  | dropped (hb : s.busy = true) (hr : r.Locked) (h : t.ovr = true)
  | cleared (hr : r = .status) (hv : v.getLsbD 6 = true) (h : t.ovr = false)
  | reset (h : t = resetBlock s)

theorem writeCase_ovr {s t : State} {r : Reg} {v : Word} (h : WriteCase s r v t) :
    OvrWrite s r v t := by
  cases h with
  | dropped hb hr => exact .dropped hb hr rfl
  | softReset => exact .reset rfl
  | status hr =>
    cases hv : v.getLsbD 6 with
    | false => exact .kept (writeStatus_ovr_of_zero s hv)
    | true => exact .cleared hr hv (writeStatus_ovr_of_one s hv)
  | readOnly | accepted | irqEn | bfWsize | bfSeed | wideA | wideE | wideN => exact .kept rfl

theorem execCase_ovr {i : Instr} {s t : State} (h : ExecCase i s t) : t.ovr = s.ovr := by
  cases h <;> rfl

/-- What one step can do to `OVR`, with the host statement that does it (R31). -/
inductive OvrStep (s t : State) : Prop where
  | kept (h : t.ovr = s.ovr)
  | dropped (hb : s.busy = true) (hd : s.turns.head? = some .host) (r : Reg) (v : Word)
      (hs : s.script.head? = some (.write r.offset 4 v)) (ht : regAt s.cfg r.offset = some r)
      (hr : r.Locked) (h : t.ovr = true)
  | cleared (hd : s.turns.head? = some .host) (v : Word)
      (hs : s.script.head? = some (.write 0x00C 4 v)) (hv : v.getLsbD 6 = true)
      (h : t.ovr = false)
  | reset (h : t = resetBlock t)

theorem step_ovr {s t : State} (h : step s = .next t) : OvrStep s t := by
  cases step_effects h with
  | command i c hd hr hp hc hi he => exact .kept (execCase_ovr he :)
  | write r v rest u hd hr hs ht hi hu e =>
    have hs : s.script.head? = some (.write r.offset 4 v) := by rw [hs]; rfl
    subst e
    cases writeCase_ovr hu with
    | kept ho => exact .kept ho
    | dropped hb hl ho => exact .dropped hb hd r v hs ht hl ho
    | cleared hst hv ho => subst hst; exact .cleared hd v hs hv ho
    | reset hu => subst hu; exact .reset rfl
  | rstLow _ e | powerLoss _ e => subst e; exact .reset rfl
  | nothing e | illegal _ _ _ _ _ _ _ e | read _ _ _ _ _ _ _ e | wait _ _ _ _ _ _ e
  | busError _ _ _ _ _ _ _ e | answer _ _ _ _ e | rstHigh _ e => subst e; exact .kept rfl

/-- A block that stands in its reset state has `OVR` clear (R45). -/
theorem ovr_of_eq_resetBlock {t : State} (h : t = resetBlock t) : t.ovr = false := by
  rw [h, resetBlock_ovr]

/-- `OVR` rises only as a dropped write (R31). -/
theorem dropped_of_ovr_rises {s t : State} (h : step s = .next t) (h0 : s.ovr = false)
    (h1 : t.ovr = true) :
    s.busy = true ∧ s.turns.head? = some .host ∧
      ∃ (off : BitVec 16) (v : Word) (r : Reg), s.script.head? = some (.write off 4 v) ∧
        regAt s.cfg off = some r ∧ r.Locked := by
  cases step_ovr h with
  | kept ho => simp [h0, h1] at ho
  | dropped hb hd r v hs ht hr _ => exact ⟨hb, hd, r.offset, v, r, hs, ht, hr⟩
  | cleared _ _ _ _ ho => simp [h1] at ho
  | reset e => exact absurd (ovr_of_eq_resetBlock e) (by simp [h1])

/-- `OVR` falls only by a `STATUS` write of 1 to its bit, or a reset (R31). -/
theorem cleared_of_ovr_falls {s t : State} (h : step s = .next t) (h1 : s.ovr = true)
    (h0 : t.ovr = false) :
    (s.turns.head? = some .host ∧
      ∃ v : Word, s.script.head? = some (.write 0x00C 4 v) ∧ v.getLsbD 6 = true) ∨
    t = resetBlock t := by
  cases step_ovr h with
  | kept ho => simp [h0, h1] at ho
  | dropped _ _ _ _ _ _ _ ho => simp [h0] at ho
  | cleared hd v hs hv _ => exact .inl ⟨hd, v, hs, hv⟩
  | reset e => exact .inr e

/-- Settles O27, from what one step can do to `OVR` (`step_ovr`). -/
theorem ovrIsSticky : Obligations.OvrIsSticky := by
  refine ⟨fun s r v hb hr => ?_, fun s v hv => ?_, resetBlock_ovr, fun s c => accept_ovr c s,
    fun i s t h => execCase_ovr (exec_cases h),
    fun s t h => ⟨dropped_of_ovr_rises h, cleared_of_ovr_falls h⟩⟩
  · rw [writeReg_of_locked v hb hr, dropWrite_ovr]
  · rw [busWrite_of_target v (busTarget_status s.cfg)]
    exact writeStatus_ovr_of_one s hv

end Sys2Proof.Machine
end

section
/-! ## The register space: offsets, reads, bus errors and read-only registers (20_memory.md) -/

namespace Sys2Proof.Machine

open Sys2Proof

/-! ### What no register sits at (R63, R65, R66) -/

/-- The windows are 4 KiB pages between 0x1000 and 0x4FFF (R66). -/
theorem WideReg.base_page (x : WideReg) :
    x.base % 0x1000 = 0 ∧ 0x1000 ≤ x.base ∧ x.base ≤ 0x4000 := by
  cases x <;> decide

/-- Where an offset that reaches a register can lie (R20, R63, R66). -/
theorem toNat_of_regAt {c : Config} {off : BitVec 16} {r : Reg} (hc : c.nwords ≤ 1024)
    (h : regAt c off = some r) :
    off.toNat % 4 = 0 ∧
      (off.toNat < 0x24 ∨
        ∃ (x : WideReg) (i : Nat), i < c.nwords ∧ off.toNat = x.base + 4 * i) := by
  obtain ⟨rfl, hi⟩ := offset_of_regAt h
  cases r with
  | wide x i =>
    have hoff := toNat_windowOffset c x i hc (hi x i rfl)
    obtain ⟨hpage, -⟩ := x.base_page
    exact ⟨by rw [Reg.offset, hoff]; omega, .inr ⟨x, i, hi x i rfl, hoff⟩⟩
  | id | param | ctrl | status | cmd | bfWsize | bfSeed | bfState | rounds =>
    exact ⟨by decide, .inl (by decide)⟩

/-- The misaligned and the unmapped offsets as R63, R65 and R66 list them. -/
abbrev Unreachable (c : Config) (off : BitVec 16) : Prop :=
  off.toNat % 4 ≠ 0 ∨ (0x24 ≤ off.toNat ∧ off.toNat < 0x1000) ∨ 0x5000 ≤ off.toNat ∨
    ∃ x : WideReg, x.base + 4 * c.nwords ≤ off.toNat ∧ off.toNat < x.base + 0x1000

/-- A register would have to sit in the same page as the offset, so below its `NWORDS` words. -/
theorem regAt_of_unreachable {c : Config} {off : BitVec 16} (hc : c.nwords ≤ 1024)
    (h : Unreachable c off) : regAt c off = none := by
  rw [Option.eq_none_iff_forall_ne_some]
  intro r hr
  obtain ⟨halign, hwhere⟩ := toNat_of_regAt hc hr
  obtain h | h := h
  · exact h halign
  obtain hlow | ⟨y, i, hi, hoff⟩ := hwhere
  · rcases h with h | h | ⟨x, h⟩
    · omega
    · omega
    · have hx := x.base_page
      omega
  · have hy := y.base_page
    rcases h with h | h | ⟨x, h⟩
    · omega
    · omega
    · have hx := x.base_page
      omega

/-- Word `i` of a window is unmapped from `NWORDS` on (R66). -/
theorem regAt_beyond_window {c : Config} (x : WideReg) {i : Nat} (hc : c.nwords ≤ 1024)
    (hi : c.nwords ≤ i) (hlt : i < 1024) : regAt c (BitVec.ofNat 16 (x.base + 4 * i)) = none := by
  have hoff : (BitVec.ofNat 16 (x.base + 4 * i)).toNat = x.base + 4 * i :=
    toNat_windowOffset ⟨1024, 0⟩ x i (Nat.le_refl _) hlt
  exact regAt_of_unreachable hc (.inr (.inr (.inr ⟨x, by rw [hoff]; omega, by rw [hoff]; omega⟩)))

/-- Settles O5: the mapped offsets by `regAt_offset_wide` and evaluation, the others by
`regAt_of_unreachable`. -/
theorem windowsReachTheirWords : Obligations.WindowsReachTheirWords := by
  intro c ⟨_, hc, _⟩
  refine ⟨fun x i hi => regAt_offset_wide c x i hc hi,
    fun x i hi hlt => regAt_beyond_window x hc hi hlt,
    rfl, rfl, rfl, rfl, rfl, rfl, rfl, rfl, rfl, fun off h => regAt_of_unreachable hc ?_⟩
  rcases h with h | h
  · exact .inr (.inl h)
  · exact .inr (.inr (.inl h))

/-! ### Bus errors (R63, R67, R72) -/

theorem busRead_of_target {s : State} {off : BitVec 16} {bytes : Nat} {r : Reg}
    (h : busTarget s.cfg off bytes = some r) : busRead s off bytes = .data (readReg s r) := by
  simp [busRead, h]

theorem busRead_of_none {s : State} {off : BitVec 16} {bytes : Nat}
    (h : busTarget s.cfg off bytes = none) : busRead s off bytes = .busError := by
  simp [busRead, h]

/-- A full-word transaction reaches what sits at its offset (R63). -/
theorem busTarget_word (c : Config) (off : BitVec 16) : busTarget c off 4 = regAt c off := rfl

/-- A transaction ends with `BUS_ERROR` for its width or for its offset (R63, R67). -/
theorem busTarget_eq_none {c : Config} {off : BitVec 16} {bytes : Nat}
    (h : bytes ≠ 4 ∨ regAt c off = none) : busTarget c off bytes = none := by
  unfold busTarget
  split
  · exact h.resolve_left (not_not_intro ‹_›)
  · rfl

/-- Settles O6: no register is reached, so the read and the write end with `BUS_ERROR`. -/
theorem busErrorChangesNothing : Obligations.BusErrorChangesNothing := by
  intro s off bytes v ⟨_, hc, _⟩ h
  have hnone : busTarget s.cfg off bytes = none :=
    busTarget_eq_none (h.imp_right (regAt_of_unreachable hc))
  exact ⟨busRead_of_none hnone, busWrite_of_none v hnone⟩

/-! ### Read values (R24, R25, R34, R37, R70) -/

/-- Zeros before a value are its zero-extension. -/
theorem zero_append_eq_setWidth {m n : Nat} (x : BitVec n) :
    (0 : BitVec m) ++ x = x.setWidth (m + n) := by
  rw [BitVec.setWidth_eq_append (Nat.le_add_left n m)]
  simp

/-- The zeros before a value are the bits from its width on. -/
theorem zero_append_and_high {m n : Nat} (x : BitVec n) :
    ((0 : BitVec m) ++ x) &&& (BitVec.allOnes (m + n) <<< n) = 0 := by
  ext i hi
  by_cases hin : i < n
  · simp [hin]
  · simp [hin, BitVec.getElem_append]

/-- Bits 31:12 of `STATUS` are reserved (R25). -/
theorem statusWord_reserved (s : State) : s.statusWord &&& 0xFFFFF000 = 0 := by
  have h : s.statusWord = (0 : BitVec 20) ++ (s.errcode ++ BitVec.ofBool s.wreq ++
      BitVec.ofBool s.ovr ++ s.jsym ++ BitVec.ofBool s.prime ++ BitVec.ofBool s.err ++
      BitVec.ofBool s.done ++ BitVec.ofBool s.busy) := by
    simp only [State.statusWord, BitVec.append_assoc, BitVec.cast_eq]
  rw [h]
  exact zero_append_and_high _

/-- `CTRL` reads `IRQ_EN` in bit 0 (R24). -/
theorem ctrlWord_eq (s : State) : s.ctrlWord = if s.irqEn then 1 else 0 := by
  unfold State.ctrlWord
  cases s.irqEn <;> rfl

/-- A register's value does not depend on the host's side of the state (R12, R70). -/
theorem readReg_hostSide (s : State) (sc : List HostStmt) (p : Option Response) (ts : List Turn)
    (r : Reg) : readReg { s with script := sc, resp := p, turns := ts } r = readReg s r := by
  cases r with
  | wide x i => cases x <;> rfl
  | id | param | ctrl | status | cmd | bfWsize | bfSeed | bfState | rounds => rfl

theorem busRead_hostSide (s : State) (sc : List HostStmt) (p : Option Response) (ts : List Turn)
    (off : BitVec 16) (bytes : Nat) :
    busRead { s with script := sc, resp := p, turns := ts } off bytes = busRead s off bytes := by
  cases h : busTarget s.cfg off bytes with
  | none => rw [busRead_of_none (s := s) h]; exact busRead_of_none h
  | some r =>
    rw [busRead_of_target (s := s) h, ← readReg_hostSide s sc p ts r]
    exact busRead_of_target h

/-- A host turn out of reset performs the next statement of the script (R12). -/
theorem step_of_hostStmt {s : State} {ts : List Turn} {st : HostStmt} {rest : List HostStmt}
    (hr : s.rstN = true) (ht : s.turns = .host :: ts) (hs : s.script = st :: rest) :
    step s = .next (hostStmt st rest { s with turns := ts }) := by
  simp [step, takeTurn, hostTurn, hr, ht, hs]

/-- A host read changes nothing but the host's own side (R70). -/
theorem step_of_read {s : State} {ts : List Turn} {off : BitVec 16} {bytes : Nat}
    {rest : List HostStmt} (hr : s.rstN = true) (ht : s.turns = .host :: ts)
    (hs : s.script = .read off bytes :: rest) :
    step s = .next { s with turns := ts, script := rest, resp := some (busRead s off bytes) } := by
  have hread : busRead { s with turns := ts } off bytes = busRead s off bytes :=
    busRead_hostSide s s.script s.resp ts off bytes
  rw [step_of_hostStmt hr ht hs, hostStmt, hread]

/-- Settles O4: the step by `step_of_read`, the values register by register, the words of the
windows by `wide_getD`. -/
theorem readReturnsCurrentValueOnly : Obligations.ReadReturnsCurrentValueOnly := by
  refine ⟨fun s ts off bytes rest hr ht hs => ⟨?_, fun h => ?_⟩, fun s => ?_, fun s => ?_,
    fun s i _ => ⟨wide_getD s.regA i, wide_getD s.regE i, wide_getD s.regN i,
      wide_getD s.regR i⟩⟩
  · rintro r rfl hreg
    rw [step_of_read hr ht hs, busRead_of_target ((busTarget_word _ _).trans hreg)]
  · rw [step_of_read hr ht hs, busRead_of_none (busTarget_eq_none h)]
  · exact ⟨zero_append_and_high (BitVec.ofBool s.irqEn), statusWord_reserved s,
      zero_append_and_high s.bfWsize, zero_append_and_high s.rounds⟩
  · exact ⟨rfl, ctrlWord_eq s, rfl, rfl, zero_append_eq_setWidth s.bfWsize, rfl, rfl,
      zero_append_eq_setWidth s.rounds⟩

/-! ### Read-only registers and reserved bits under writes (R68) -/

/-- A write that its register ignores still completes (R68). -/
theorem busWrite_of_ignored {s : State} {off : BitVec 16} {r : Reg} {v : Word}
    (ht : busTarget s.cfg off 4 = some r) (hr : writeReg r v s = s) :
    busWrite off 4 v s = { s with resp := some .ok } := by
  rw [busWrite_of_target v ht, hr]

/-- A write keeps the parameters, so a read after it reaches the same register (R70, R71). -/
theorem busRead_busWrite {s : State} {off : BitVec 16} {bytes : Nat} {r : Reg} (v : Word)
    (ht : busTarget s.cfg off bytes = some r) :
    busRead (busWrite off bytes v s) off bytes = .data (readReg (writeReg r v s) r) := by
  have hcfg : (writeReg r v s).cfg = s.cfg := writeCase_cfg (writeReg_cases s r v)
  rw [busWrite_of_target v ht, busRead_of_target (r := r) (by rw [hcfg]; exact ht)]
  exact congrArg Response.data (readReg_hostSide (writeReg r v s) _ _ _ r)

/-- `CTRL` after a write without the reset bit shows bit 0 of what was written (R24, R129). -/
theorem readReg_ctrl_of_write {v : Word} (s : State) (hv : v.getLsbD 31 = false) :
    readReg (writeReg .ctrl v s) .ctrl = v &&& 0x00000001 := by
  rw [writeReg, writeCtrl_of_not_reset s hv, readReg, State.ctrlWord, zero_append_eq_setWidth]
  exact BitVec.and_one_eq_setWidth_ofBool_getLsbD.symm

/-- `BF_WSIZE` after a write to an idle engine shows bits 15:0 of what was written (R34). -/
theorem readReg_bfWsize_of_write {s : State} (v : Word) (hb : s.busy = false) :
    readReg (writeReg .bfWsize v s) .bfWsize = v &&& 0x0000FFFF := by
  rw [writeReg, unlessBusy_idle _ hb, readReg, ← BitVec.setWidth_eq_extractLsb' (by decide)]
  exact (BitVec.and_setWidth_allOnes 16 16 v).symm

/-- Settles O7: each write by its register, each read after it by `busRead_busWrite`. -/
theorem readOnlyRegistersIgnoreWrites : Obligations.ReadOnlyRegistersIgnoreWrites := by
  intro s v ⟨_, hc, _⟩
  refine ⟨fun off hoff => ?_, fun i hi => ?_, fun hv => ?_, fun hb => ?_,
    _, busRead_busWrite v (busTarget_status s.cfg), statusWord_reserved _⟩
  · rcases hoff with rfl | rfl | rfl | rfl
    · exact busWrite_of_ignored (r := .id) rfl rfl
    · exact busWrite_of_ignored (r := .param) rfl rfl
    · exact busWrite_of_ignored (r := .bfState) rfl rfl
    · exact busWrite_of_ignored (r := .rounds) rfl rfl
  · exact busWrite_of_ignored (busTarget_wide .r hc hi) rfl
  · rw [busRead_busWrite (r := .ctrl) v rfl, readReg_ctrl_of_write s hv]
  · rw [busRead_busWrite (r := .bfWsize) v rfl, readReg_bfWsize_of_write v hb]

end Sys2Proof.Machine
end

section
/-! ## Legal words: the decoder, `legal(c)` and the rows of the opcode map (30_encoding.md) -/

namespace Sys2Proof

/-! ### The fields of a word (R91) -/

/-- The four fields are the whole word (R91). -/
theorem append_fields (c : Word) : kField c ++ rsvField c ++ modField c ++ opField c = c := by
  simp only [kField, rsvField, modField, opField]
  rw [BitVec.extractLsb'_append_extractLsb'_eq_extractLsb' (by rfl),
    BitVec.extractLsb'_append_extractLsb'_eq_extractLsb' (by rfl),
    BitVec.extractLsb'_append_extractLsb'_eq_extractLsb' (by rfl)]
  exact BitVec.extractLsb'_eq_self

theorem word_eq_iff_fields (c d : Word) :
    c = d ↔ rsvField c = rsvField d ∧ opField c = opField d ∧ modField c = modField d ∧
      kField c = kField d := by
  refine ⟨fun h => h ▸ ⟨rfl, rfl, rfl, rfl⟩, fun ⟨hrsv, hop, hmd, hk⟩ => ?_⟩
  rw [← append_fields c, ← append_fields d, hop, hmd, hrsv, hk]

/-- The mask of a test's row leaves every field but the count (R96). -/
theorem and_lowHalf_eq_iff_fields (c d : Word) :
    c &&& 0x0000FFFF = d &&& 0x0000FFFF ↔
      rsvField c = rsvField d ∧ opField c = opField d ∧ modField c = modField d := by
  have hrsv (x : Word) : rsvField (x &&& 0x0000FFFF) = rsvField x :=
    BitVec.extractLsb'_and.trans BitVec.and_allOnes
  have hop (x : Word) : opField (x &&& 0x0000FFFF) = opField x :=
    BitVec.extractLsb'_and.trans BitVec.and_allOnes
  have hmd (x : Word) : modField (x &&& 0x0000FFFF) = modField x :=
    BitVec.extractLsb'_and.trans BitVec.and_allOnes
  have hk (x : Word) : kField (x &&& 0x0000FFFF) = 0 :=
    BitVec.extractLsb'_and.trans BitVec.and_zero
  simp only [word_eq_iff_fields, hrsv, hop, hmd, hk, and_true]

/-! ### What the decoder accepts -/

/-- The word has the fields of the command's encoding (R91, R96). -/
def Instr.EncodedBy (i : Instr) (c : Word) : Prop :=
  rsvField c = 0 ∧ opField c = i.op ∧ modField c = i.md ∧ (kField c).toNat = i.count

theorem decodePlain_eq_ok_iff {md : BitVec 4} {k : BitVec 16} {i j : Instr} :
    decodePlain md k i = .ok j ↔ i = j ∧ md = 0 ∧ k = 0 := by
  unfold decodePlain
  split_ifs <;> simp_all

theorem decodeBfNext_eq_ok_iff {md : BitVec 4} {k : BitVec 16} {j : Instr} :
    decodeBfNext md k = .ok j ↔ k = 0 ∧ (.bfNextT2 = j ∧ md = 0 ∨ .bfNextT3 = j ∧ md = 1) := by
  unfold decodeBfNext
  split_ifs <;> simp_all

theorem decodeMrTest_eq_ok_iff {md : BitVec 4} {k : BitVec 16} {j : Instr} :
    decodeMrTest md k = .ok j ↔ .mrTestS k.toNat = j ∧ md = 0 ∨ .mrTestCA k.toNat = j ∧ md = 1 ∨
      .mrTestCO k.toNat = j ∧ md = 2 := by
  unfold decodeMrTest
  split_ifs <;> simp_all

theorem decodeSsTest_eq_ok_iff {md : BitVec 4} {k : BitVec 16} {j : Instr} :
    decodeSsTest md k = .ok j ↔ .ssTest k.toNat = j ∧ md = 0 := by
  unfold decodeSsTest
  split_ifs <;> simp_all

/-- A command that is no test has no count (R95). -/
theorem Instr.count_eq_zero {i : Instr} (h : i.isTest = false) : i.count = 0 := by
  cases i <;> simp_all [Instr.isTest, Instr.count]

theorem encodedBy_of_decode {c : Word} {i : Instr} (h : decode c = .ok i) : i.EncodedBy c := by
  have plain (j : Instr) (hrsv : rsvField c = 0) (hop : opField c = j.op) (hmd : j.md = 0)
      (ht : j.isTest = false) (h : decodePlain (modField c) (kField c) j = .ok i) :
      i.EncodedBy c := by
    obtain ⟨rfl, hm, hk⟩ := decodePlain_eq_ok_iff.1 h
    exact ⟨hrsv, hop, hm.trans hmd.symm, (congrArg _ hk).trans (Instr.count_eq_zero ht).symm⟩
  unfold decode at h
  split_ifs at h with hrsv hop hop hop hop hop hop hop
  all_goals rw [not_not] at hrsv
  · exact plain .nop hrsv hop rfl rfl h
  · exact plain .bfInit hrsv hop rfl rfl h
  · obtain ⟨hk, ⟨rfl, hm⟩ | ⟨rfl, hm⟩⟩ := decodeBfNext_eq_ok_iff.1 h <;>
      exact ⟨hrsv, hop, hm, congrArg _ hk⟩
  · exact plain .powmod hrsv hop rfl rfl h
  · exact plain .jacobi hrsv hop rfl rfl h
  · obtain ⟨rfl, hm⟩ | ⟨rfl, hm⟩ | ⟨rfl, hm⟩ := decodeMrTest_eq_ok_iff.1 h <;>
      exact ⟨hrsv, hop, hm, rfl⟩
  · obtain ⟨rfl, hm⟩ := decodeSsTest_eq_ok_iff.1 h
    exact ⟨hrsv, hop, hm, rfl⟩

theorem decode_of_encodedBy {c : Word} {i : Instr} (h : i.EncodedBy c) : decode c = .ok i := by
  obtain ⟨hrsv, hop, hmd, hk⟩ := h
  have hk0 (ht : i.isTest = false) : kField c = 0 :=
    BitVec.eq_of_toNat_eq (hk.trans (Instr.count_eq_zero ht))
  cases i <;> simp_all [decode, decodePlain, decodeBfNext, decodeMrTest, decodeSsTest, Instr.op,
    Instr.md, Instr.count, Instr.isTest]

/-- The decoder reads a command exactly from the words that hold its fields. -/
theorem decode_eq_ok_iff {c : Word} {i : Instr} : decode c = .ok i ↔ i.EncodedBy c :=
  ⟨encodedBy_of_decode, decode_of_encodedBy⟩

/-! ### The rows of the opcode map (R96) -/

/-- The opcode map is the rows of the command forms, in order. -/
theorem opcodeRows_eq_map_row :
    opcodeRows = [Instr.nop, .bfInit, .bfNextT2, .bfNextT3, .powmod, .jacobi, .mrTestS 0,
      .mrTestCA 0, .mrTestCO 0, .ssTest 0].map Instr.row := rfl

theorem Instr.row_mem_opcodeRows (i : Instr) : i.row ∈ opcodeRows := by
  cases i <;> simp [Instr.row, opcodeRows]

theorem exists_matching_row_iff {c : Word} :
    (∃ row ∈ opcodeRows, row.Matches c) ↔ ∃ i : Instr, i.row.Matches c := by
  constructor
  · rintro ⟨row, hrow, hm⟩
    obtain ⟨i, -, rfl⟩ := List.mem_map.1 (opcodeRows_eq_map_row ▸ hrow)
    exact ⟨i, hm⟩
  · exact fun ⟨i, hm⟩ => ⟨i.row, i.row_mem_opcodeRows, hm⟩

theorem Instr.row_mask (i : Instr) :
    i.row.mask = if i.isTest then 0x0000FFFF else 0xFFFFFFFF := by
  cases i <;> rfl

theorem Instr.row_pattern_fields (i : Instr) :
    rsvField i.row.pattern = 0 ∧ opField i.row.pattern = i.op ∧ modField i.row.pattern = i.md ∧
      kField i.row.pattern = 0 := by
  cases i <;> dsimp only [Instr.row, Instr.op, Instr.md] <;> decide

/-- A row fixes `RSV`, `OP` and `MOD`, and leaves the count free for the tests only. -/
theorem Instr.row_matches_iff {i : Instr} {c : Word} :
    i.row.Matches c ↔ rsvField c = 0 ∧ opField c = i.op ∧ modField c = i.md ∧
      (i.isTest = false → kField c = 0) := by
  obtain ⟨hrsv, hop, hmd, hk⟩ := i.row_pattern_fields
  have hm := i.row_mask
  cases ht : i.isTest with
  | true =>
    rw [ht, if_pos rfl] at hm
    simp only [OpcodeRow.Matches, hm, and_lowHalf_eq_iff_fields, hrsv, hop, hmd, reduceCtorEq,
      false_imp_iff, and_true]
  | false =>
    rw [ht, if_neg Bool.false_ne_true] at hm
    have hfull (d : Word) : d &&& 0xFFFFFFFF = d := BitVec.and_allOnes
    simp only [OpcodeRow.Matches, hm, hfull, word_eq_iff_fields, hrsv, hop, hmd, hk,
      true_imp_iff]

theorem Instr.row_matches_of_encodedBy {i : Instr} {c : Word} (h : i.EncodedBy c) :
    i.row.Matches c := by
  obtain ⟨hrsv, hop, hmd, hk⟩ := h
  exact row_matches_iff.2 ⟨hrsv, hop, hmd,
    fun ht => BitVec.eq_of_toNat_eq (hk.trans (count_eq_zero ht))⟩

/-! ### The legality function (R97) -/

theorem legal_of_row_matches {i : Instr} {c : Word} (h : i.row.Matches c) : legal c = true := by
  obtain ⟨hrsv, hop, hmd, hk⟩ := Instr.row_matches_iff.1 h
  cases i <;> simp_all [legal, Instr.op, Instr.md, Instr.isTest]

theorem exists_encodedBy_of_legal {c : Word} (h : legal c = true) : ∃ i : Instr, i.EncodedBy c := by
  unfold legal at h
  split_ifs at h with hrsv hop hop hop hop
  all_goals rw [not_not] at hrsv
  · obtain ⟨hmd, hk⟩ := of_decide_eq_true h
    have hk := congrArg BitVec.toNat hk
    rcases hop with hop | hop | hop | hop
    · exact ⟨.nop, hrsv, hop, hmd, hk⟩
    · exact ⟨.bfInit, hrsv, hop, hmd, hk⟩
    · exact ⟨.powmod, hrsv, hop, hmd, hk⟩
    · exact ⟨.jacobi, hrsv, hop, hmd, hk⟩
  · obtain ⟨hle, hk⟩ := of_decide_eq_true h
    have hk := congrArg BitVec.toNat hk
    obtain hmd | hmd : modField c = 0 ∨ modField c = 1 := by bv_omega
    · exact ⟨.bfNextT2, hrsv, hop, hmd, hk⟩
    · exact ⟨.bfNextT3, hrsv, hop, hmd, hk⟩
  · have hle := of_decide_eq_true h
    obtain hmd | hmd | hmd : modField c = 0 ∨ modField c = 1 ∨ modField c = 2 := by bv_omega
    · exact ⟨.mrTestS _, hrsv, hop, hmd, rfl⟩
    · exact ⟨.mrTestCA _, hrsv, hop, hmd, rfl⟩
    · exact ⟨.mrTestCO _, hrsv, hop, hmd, rfl⟩
  · exact ⟨.ssTest _, hrsv, hop, of_decide_eq_true h, rfl⟩

/-- Settles O16: a decoded command's row matches the word, a matched row makes the word legal,
and a legal word holds the fields of a command, which the decoder reads. -/
theorem legalWordsMatchARow : Obligations.LegalWordsMatchARow := by
  intro c
  have row_of_decode : (∃ i, decode c = .ok i) → ∃ i : Instr, i.row.Matches c :=
    fun ⟨i, hi⟩ => ⟨i, Instr.row_matches_of_encodedBy (decode_eq_ok_iff.1 hi)⟩
  have legal_of_row : (∃ i : Instr, i.row.Matches c) → legal c = true :=
    fun ⟨_, hm⟩ => legal_of_row_matches hm
  have decode_of_legal : legal c = true → ∃ i, decode c = .ok i := fun hl =>
    (exists_encodedBy_of_legal hl).imp fun _ => decode_eq_ok_iff.2
  rw [exists_matching_row_iff]
  exact ⟨⟨legal_of_row ∘ row_of_decode, decode_of_legal⟩, row_of_decode ∘ decode_of_legal,
    legal_of_row⟩

end Sys2Proof
end

section
/-! ## The control family: issue, the busy lock, the commit, NOP, `STATUS` and `CTRL` writes
(40_control.md) -/

namespace Sys2Proof.Machine

open Sys2Proof

/-! ### The layout of `STATUS` (R25) -/

/-- A word laid out as `STATUS` (R25). -/
def statusLayout (errcode : BitVec 4) (wreq ovr : Bool) (jsym : BitVec 2)
    (prime err done busy : Bool) : Word :=
  (0 : BitVec 20) ++ errcode ++ BitVec.ofBool wreq ++ BitVec.ofBool ovr ++ jsym ++
    BitVec.ofBool prime ++ BitVec.ofBool err ++ BitVec.ofBool done ++ BitVec.ofBool busy

theorem statusWord_eq_layout (s : State) :
    s.statusWord =
      statusLayout s.errcode s.wreq s.ovr s.jsym s.prime s.err s.done s.busy := rfl

section
variable (c c' : BitVec 4) (j j' : BitVec 2) (w w' o o' p p' e e' d d' b b' : Bool)

theorem statusLayout_and :
    statusLayout c w o j p e d b &&& statusLayout c' w' o' j' p' e' d' b' =
      statusLayout (c &&& c') (w && w') (o && o') (j &&& j') (p && p') (e && e') (d && d')
        (b && b') := by
  simp only [statusLayout, ← BitVec.ofBool_and_ofBool]
  iterate 8 rw [BitVec.and_append]
  rfl

theorem statusLayout_or :
    statusLayout c w o j p e d b ||| statusLayout c' w' o' j' p' e' d' b' =
      statusLayout (c ||| c') (w || w') (o || o') (j ||| j') (p || p') (e || e') (d || d')
        (b || b') := by
  simp only [statusLayout, ← BitVec.ofBool_or_ofBool]
  iterate 8 rw [BitVec.or_append]
  rfl

end

/-! ### Writes to `STATUS` and `CTRL` (R128, R129) -/

/-- Each 1 in the data clears its bit, each 0 leaves it (R128). -/
theorem writeStatus_eq_ite (v : Word) (s : State) :
    writeStatus v s =
      { s with
        done := if v.getLsbD 1 then false else s.done
        ovr := if v.getLsbD 6 then false else s.ovr } := by
  unfold writeStatus
  cases v.getLsbD 1 <;> cases v.getLsbD 6 <;> simp

/-- `STATUS` after a write to it: `OVR` and `DONE` are masked by the ones written (R128). -/
theorem statusWord_writeStatus (v : Word) (s : State) :
    (writeStatus v s).statusWord = s.statusWord &&& statusLayout (BitVec.allOnes 4) true
      (!v.getLsbD 6) (BitVec.allOnes 2) true true (!v.getLsbD 1) true := by
  rw [statusWord_eq_layout s, statusLayout_and]
  simp only [BitVec.and_allOnes, Bool.and_true]
  rfl

/-- Settles O10: the write by `writeStatus_eq_ite`, the rule's example by
`statusWord_writeStatus`. -/
theorem statusWriteClearsDoneAndOvr : Obligations.StatusWriteClearsDoneAndOvr := by
  refine ⟨fun s v => ?_, fun s hs => ?_⟩
  · rw [busWrite_of_target v (busTarget_status s.cfg), writeReg, writeStatus_eq_ite]
  · have hword : (writeStatus 0x42 s).statusWord = 0x00000008 := by
      rw [statusWord_writeStatus, hs]
      decide
    rw [busRead_busWrite 0x42 (busTarget_status s.cfg), writeReg, readReg, hword]

/-- Offset 0x008 reaches `CTRL` in every configuration (R20). -/
theorem busTarget_ctrl (c : Config) : busTarget c 0x008 4 = some .ctrl := rfl

theorem busWrite_ctrl_of_not_reset {v : Word} (s : State) (hv : v.getLsbD 31 = false) :
    busWrite 0x008 4 v s = { s with irqEn := v.getLsbD 0, resp := some .ok } := by
  rw [busWrite_of_target v (busTarget_ctrl s.cfg), writeReg, writeCtrl_of_not_reset s hv]

theorem busWrite_ctrl_of_reset {v : Word} (s : State) (hv : v.getLsbD 31 = true) :
    busWrite 0x008 4 v s = { resetBlock s with resp := some .ok } := by
  rw [busWrite_of_target v (busTarget_ctrl s.cfg), writeReg, writeCtrl_of_reset s hv]

/-- Settles O11: the two forms of a `CTRL` write. -/
theorem ctrlWriteSetsIrqEnable : Obligations.CtrlWriteSetsIrqEnable := fun s _ =>
  ⟨busWrite_ctrl_of_not_reset s, fun hv =>
    ⟨busWrite_ctrl_of_reset s hv, by rw [busWrite_ctrl_of_reset s hv, resetBlock_irqEn]⟩⟩

/-! ### What a step can do to `BUSY`, the operands and the results (R120, R123–R125) -/

/-- The result registers and result fields are the same in both states (R125). -/
abbrev ResultsKept (s t : State) : Prop :=
  t.regR = s.regR ∧ t.xs = s.xs ∧ t.prime = s.prime ∧ t.jsym = s.jsym ∧ t.rounds = s.rounds ∧
    t.err = s.err ∧ t.errcode = s.errcode

/-- The operands and the accepted word are the same in both states (R123). -/
abbrev OperandsKept (s t : State) : Prop :=
  t.regA = s.regA ∧ t.regE = s.regE ∧ t.regN = s.regN ∧ t.bfWsize = s.bfWsize ∧
    t.bfSeed = s.bfSeed ∧ t.cur = s.cur ∧ t.cmd = s.cmd

theorem resultsKept_refl (s : State) : ResultsKept s s := ⟨rfl, rfl, rfl, rfl, rfl, rfl, rfl⟩

theorem operandsKept_refl (s : State) : OperandsKept s s := ⟨rfl, rfl, rfl, rfl, rfl, rfl, rfl⟩

/-- What one step can do in the life of a command: leave `BUSY` as it is, accept a `CMD` write,
commit, or reset the block. -/
inductive LifecycleStep (s t : State) : Prop where
  | stays (hb : t.busy = s.busy) (hr : ResultsKept s t) (ho : s.busy = true → OperandsKept s t)
  | accepts (c : Word) (rest : List HostStmt) (hb : s.busy = false)
      (hd : s.turns.head? = some .host) (hs : s.script = .write 0x010 4 c :: rest)
      (hr : ResultsKept s t) (hcur : t.cur = some c) (hcmd : t.cmd = c)
  | commits (hp : s.phase = .run) (hd : s.turns = [] ∨ s.turns.head? = some .engine)
      (hdone : t.done = true) (hb : t.busy = false)
  | resets (h : t = resetBlock t)

/-- A running engine's step on a command commits it or keeps it running with a request (R130). -/
theorem execCase_lifecycle {i : Instr} {s t : State}
    (hd : s.turns = [] ∨ s.turns.head? = some .engine) (hp : s.phase = .run)
    (h : ExecCase i s.moving t) : LifecycleStep s t := by
  have hb : s.busy = true := (busy_iff s).2 (by simp [hp])
  cases h with
  | commits o p l a => exact .commits hp hd rfl rfl
  | requests | requestsAgain =>
    exact .stays (hb ▸ rfl) (resultsKept_refl s) fun _ => operandsKept_refl s

/-- A host write accepts a command, resets the block, or leaves `BUSY` and the results as they are;
the stores to operands need an idle engine (R71, R120, R123). -/
theorem writeCase_lifecycle {s u : State} {r : Reg} {v : Word} {rest : List HostStmt}
    (hd : s.turns.head? = some .host) (hs : s.script = .write r.offset 4 v :: rest)
    (h : WriteCase { s.moving with script := rest } r v u) :
    LifecycleStep s { u with resp := some .ok } := by
  have stored {t : State} (hidle : s.busy = false) (hb : t.busy = s.busy)
      (hr : ResultsKept s t) : LifecycleStep s t :=
    .stays hb hr fun hbusy => by simp [hidle] at hbusy
  cases h with
  | accepted hidle hr => subst hr; exact .accepts v rest hidle hd hs (resultsKept_refl s) rfl rfl
  | softReset => exact .resets rfl
  | bfWsize hidle | bfSeed hidle | wideA _ hidle | wideE _ hidle | wideN _ hidle =>
    exact stored hidle rfl (resultsKept_refl s)
  | readOnly | dropped | status | irqEn =>
    exact .stays rfl (resultsKept_refl s) fun _ => operandsKept_refl s

theorem step_lifecycle {s t : State} (h : step s = .next t) : LifecycleStep s t := by
  cases step_effects h with
  | command i c hd hr hp hc hi he => exact execCase_lifecycle hd hp he
  | illegal c e hd hr hp hc he ht => subst ht; exact .commits hp hd rfl rfl
  | write r v rest u hd hr hs ht hi hu e => subst e; exact writeCase_lifecycle hd hs hu
  | answer a hd hr hp e =>
    have hb : s.busy = true := (busy_iff s).2 (by simp [hp])
    subst e
    exact .stays (hb ▸ rfl) (resultsKept_refl s) fun _ => operandsKept_refl s
  | rstLow _ e | powerLoss _ e => subst e; exact .resets rfl
  | nothing e | read _ _ _ _ _ _ _ e | wait _ _ _ _ _ _ e | busError _ _ _ _ _ _ _ e
  | rstHigh _ e =>
    subst e
    exact .stays rfl (resultsKept_refl s) fun _ => operandsKept_refl s

/-- A block that stands in its reset state is idle (R45). -/
theorem not_busy_of_eq_resetBlock {t : State} (h : t = resetBlock t) : t.busy = false := by
  rw [h, busy_resetBlock]

/-- Up to the commit every result keeps its value (R125). -/
theorem resultsKept_of_step_busy {s t : State} (h : step s = .next t) (hb : t.busy = true) :
    ResultsKept s t := by
  cases step_lifecycle h with
  | stays _ hr | accepts _ _ _ _ _ hr => exact hr
  | commits _ _ _ hidle => simp [hb] at hidle
  | resets e => exact absurd (not_busy_of_eq_resetBlock e) (by simp [hb])

/-- From acceptance to commit the operands keep their values (R123). -/
theorem operandsKept_of_step_busy {s t : State} (h : step s = .next t) (h0 : s.busy = true)
    (h1 : t.busy = true) : OperandsKept s t := by
  cases step_lifecycle h with
  | stays _ _ ho => exact ho h0
  | accepts _ _ hidle => simp [h0] at hidle
  | commits _ _ _ hidle => simp [h1] at hidle
  | resets e => exact absurd (not_busy_of_eq_resetBlock e) (by simp [h1])

/-- `BUSY` rises only as an acceptance (R26, R120). -/
theorem accepted_of_busy_rises {s t : State} (h : step s = .next t) (h0 : s.busy = false)
    (h1 : t.busy = true) :
    ∃ (c : Word) (rest : List HostStmt), s.turns.head? = some .host ∧
      s.script = .write 0x010 4 c :: rest ∧ t.cur = some c ∧ t.cmd = c := by
  cases step_lifecycle h with
  | stays hb => simp [h0, h1] at hb
  | accepts c rest _ hd hs _ hcur hcmd => exact ⟨c, rest, hd, hs, hcur, hcmd⟩
  | commits _ _ _ hidle => simp [h1] at hidle
  | resets e => exact absurd (not_busy_of_eq_resetBlock e) (by simp [h1])

/-- `BUSY` falls only at the commit or by a reset (R26). -/
theorem committed_of_busy_falls {s t : State} (h : step s = .next t) (h1 : s.busy = true)
    (h0 : t.busy = false) :
    (s.phase = .run ∧ t.done = true ∧ (s.turns = [] ∨ s.turns.head? = some .engine)) ∨
      t = resetBlock t := by
  cases step_lifecycle h with
  | stays hb => simp [h0, h1] at hb
  | accepts _ _ hidle => simp [h1] at hidle
  | commits hp hd hdone _ => exact .inl ⟨hp, hdone, hd⟩
  | resets e => exact .inr e

/-- Settles O25: the results of a step into a busy state, by `step_lifecycle`. -/
theorem resultsChangeOnlyAtCommit : Obligations.ResultsChangeOnlyAtCommit :=
  fun _ _ => resultsKept_of_step_busy

/-! ### The `CMD` write and the busy lock on the bus (R120, R121, R123) -/

/-- Offset 0x010 reaches `CMD` in every configuration (R20). -/
theorem busTarget_cmd (c : Config) : busTarget c 0x010 4 = some .cmd := rfl

/-- A `CMD` write to an idle engine is the acceptance of its word (R120). -/
theorem busWrite_cmd_of_idle {s : State} (c : Word) (hb : s.busy = false) :
    busWrite 0x010 4 c s = { accept c s with resp := some .ok } := by
  rw [busWrite_of_target c (busTarget_cmd s.cfg), writeReg, unlessBusy_idle _ hb]

/-- Settles O21, from what one step can do to `BUSY` (`step_lifecycle`). -/
theorem busyRisesAndFallsOnlyAsStated : Obligations.BusyRisesAndFallsOnlyAsStated := by
  refine ⟨fun s c hb => ?_, fun _ _ => accepted_of_busy_rises, fun _ _ => committed_of_busy_falls⟩
  rw [busWrite_cmd_of_idle c hb]
  exact ⟨rfl, rfl⟩

/-- The busy lock over the bus: the write completes and only `OVR` shows it (R121, R123). -/
theorem busWrite_of_locked {s : State} {off : BitVec 16} {r : Reg} (v : Word)
    (hb : s.busy = true) (ht : busTarget s.cfg off 4 = some r) (hr : r.Locked) :
    busWrite off 4 v s = { s with ovr := true, resp := some .ok } := by
  rw [busWrite_of_target v ht, writeReg_of_locked v hb hr, dropWrite]

/-- Settles O8: the locked registers by `busWrite_of_locked`, the held operands by
`operandsKept_of_step_busy`. -/
theorem busyLockDropsWrites : Obligations.BusyLockDropsWrites := by
  refine ⟨fun s v ⟨_, hc, _⟩ hb => ⟨fun off hoff => ?_, fun x i hx hi => ?_,
    busWrite_ctrl_of_not_reset s, busWrite_of_target v (busTarget_status s.cfg)⟩,
    fun _ _ => operandsKept_of_step_busy⟩
  · rcases hoff with rfl | rfl | rfl
    · exact busWrite_of_locked v hb (busTarget_cmd s.cfg) (.inl rfl)
    · exact busWrite_of_locked (r := .bfWsize) v hb rfl (.inr (.inl rfl))
    · exact busWrite_of_locked (r := .bfSeed) v hb rfl (.inr (.inr (.inl rfl)))
  · exact busWrite_of_locked v hb (busTarget_wide x hc hi) (.inr (.inr (.inr ⟨x, i, hx, rfl⟩)))

/-! ### NOP (R127) -/

/-- The whole effect of NOP (R127). -/
theorem exec_nop (s : State) :
    exec .nop s = .next { s with
      err := false, errcode := 0, done := true, phase := .idle, pend := {} } := rfl

/-- NOP is the only command with opcode 0 (R96). -/
theorem eq_nop_of_op {i : Instr} (h : i.op = 0) : i = .nop := by
  cases i with
  | nop => rfl
  | bfInit | bfNextT2 | bfNextT3 | powmod | jacobi | mrTestS | mrTestCA | mrTestCO | ssTest =>
    cases h

/-- The zero word is the encoding of NOP, and no other word is (R96). -/
theorem encodedBy_nop_iff {c : Word} : Instr.nop.EncodedBy c ↔ c = 0 := by
  have hcount : (kField c).toNat = 0 ↔ kField c = 0 := BitVec.toNat_inj (y := 0)
  rw [Instr.EncodedBy, Instr.count, hcount, word_eq_iff_fields]
  rfl

/-- Another word with NOP's opcode would have to encode a command of that opcode (R97). -/
theorem not_legal_of_opField_zero {c : Word} (hop : opField c = 0) (hc : c ≠ 0) :
    legal c = false := by
  rw [← Bool.not_eq_true]
  intro hl
  obtain ⟨i, hi⟩ := exists_encodedBy_of_legal hl
  have ⟨_, hopi, _⟩ := hi
  obtain rfl : i = .nop := eq_nop_of_op (hopi.symm.trans hop)
  exact hc (encodedBy_nop_iff.1 hi)

/-- `STATUS` after an accepted NOP: `OVR`, `JSYM` and `PRIME` stay, `DONE` is 1, the rest 0
(R127). -/
theorem statusWord_nop (s : State) :
    (finish nopRun (accept 0 s)).statusWord = s.statusWord &&& 0x00000078 ||| 0x00000002 := by
  have hkept : (0x00000078 : Word) =
      statusLayout 0#4 false true (BitVec.allOnes 2) true false false false := by decide
  have hdone : (0x00000002 : Word) =
      statusLayout 0#4 false false 0#2 false false true false := by decide
  rw [hkept, hdone, statusWord_eq_layout s, statusLayout_and, statusLayout_or]
  simp only [BitVec.and_zero, BitVec.or_zero, BitVec.and_allOnes, Bool.and_false, Bool.and_true,
    Bool.or_false, Bool.or_true]
  rfl

/-- Settles O30: the word by the decoder's encoding lemma, the illegal words by their opcode, the
rule's example by `statusWord_nop`. -/
theorem nopCommitsNothing : Obligations.NopCommitsNothing := by
  refine ⟨exec_nop, fun c => decode_eq_ok_iff.trans encodedBy_nop_iff,
    fun c => not_legal_of_opField_zero, fun s hs => ⟨_, rfl, ?_⟩⟩
  have hword : (finish nopRun (accept 0 s)).statusWord = 0x00000042 := by
    rw [statusWord_nop, hs]
    decide
  exact hword

end Sys2Proof.Machine
end

section
/-! ## The BitFolder: BF_INIT and BF_NEXT (41_bitfolder.md) -/

namespace Sys2Proof

/-- A command without a count has one word, its row's pattern (R96). -/
theorem Instr.encodedBy_iff_eq_pattern {i : Instr} {c : Word} (h : i.isTest = false) :
    i.EncodedBy c ↔ c = i.row.pattern := by
  obtain ⟨hrsv, hop, hmd, hk⟩ := i.row_pattern_fields
  have hcount : (kField c).toNat = 0 ↔ kField c = 0 := BitVec.toNat_inj (y := 0)
  rw [EncodedBy, count_eq_zero h, hcount, word_eq_iff_fields, hrsv, hop, hmd, hk]

namespace Machine

/-- The whole effect of BF_INIT (R140). -/
theorem exec_bfInit (s : State) :
    exec .bfInit s = .next { s with
      xs := s.bfSeed, err := false, errcode := 0, done := true, phase := .idle
      pend := { xs := some s.bfSeed } } := rfl

/-- Settles O31: the effect by `exec_bfInit`, the word by the decoder's encoding lemma. -/
theorem bfInitLoadsTheSeed : Obligations.BfInitLoadsTheSeed :=
  ⟨exec_bfInit, fun _ => decode_eq_ok_iff.trans (Instr.encodedBy_iff_eq_pattern rfl)⟩

/-! ### The two BF_NEXT forms and the width check (R145) -/

/-- `BF_NEXT` at a sampling point, as the command form that carries it (R93, R145). -/
theorem exec_bfNext {sp : SamplePoint} {i : Instr} (s : State)
    (h : (sp = .t2 ∧ i = .bfNextT2) ∨ (sp = .t3 ∧ i = .bfNextT3)) :
    exec i s = .next (finish (bfNextRun sp s) s) := by
  obtain ⟨rfl, rfl⟩ | ⟨rfl, rfl⟩ := h
  · rfl
  · rfl

theorem bfNextRun_of_illegal_width (sp : SamplePoint) {s : State}
    (h : s.bfWsize.toNat = 0 ∨ s.cfg.wmax < s.bfWsize.toNat) :
    bfNextRun sp s = .error .invalidWidth := if_pos h

theorem bfNextRun_of_legal_width (sp : SamplePoint) {s : State} (h0 : s.bfWsize.toNat ≠ 0)
    (hmax : s.bfWsize.toNat ≤ s.cfg.wmax) :
    bfNextRun sp s = .ok
      { r := some (wideOfNat s.cfg.nwords (bfOutput sp s.bfWsize.toNat s.xs).1)
        xs := some (bfOutput sp s.bfWsize.toNat s.xs).2 } :=
  if_neg (by omega)

/-! ### The block loop: the stream of sampled words (R145) -/

/-- `XS` after `b` xorshift steps (R142). -/
abbrev xsAfter (b : Nat) (x : Word) : Word := (fun y => (xsStep y).2)^[b] x

/-- Bit `p` of the stream of `blocks` sampled words, block 0 most significant: bit `p mod 32` of
block `blocks - 1 - p div 32` (R145). -/
def streamBit (sp : SamplePoint) (blocks : Nat) (x : Word) (p : Nat) : Bool :=
  (sampled sp (xsStep (xsAfter (blocks - 1 - p / 32) x))).getLsbD (p % 32)

/-- Below its first word, the stream is the stream that starts one step later. -/
theorem streamBit_succ (sp : SamplePoint) {b p : Nat} (x : Word) (h : p < 32 * b) :
    streamBit sp (b + 1) x p = streamBit sp b (xsStep x).2 p := by
  have hblock : b + 1 - 1 - p / 32 = b - 1 - p / 32 + 1 := by omega
  rw [streamBit, hblock, xsAfter, Function.iterate_succ_apply]
  rfl

/-- The first word of the stream is sampled from the first step. -/
theorem streamBit_first (sp : SamplePoint) {b p : Nat} (x : Word) (h : 32 * b ≤ p)
    (hp : p < 32 * (b + 1)) :
    streamBit sp (b + 1) x p = (sampled sp (xsStep x)).getLsbD (p - 32 * b) := by
  have hblock : b + 1 - 1 - p / 32 = 0 := by omega
  have hbit : p % 32 = p - 32 * b := by omega
  rw [streamBit, hblock, hbit]
  rfl

/-- One more word under the stream: its bits are the low 32, the rest moves up (R145). -/
theorem testBit_shiftLeft_or_toNat (acc : Nat) (word : Word) (p : Nat) :
    ((acc <<< 32) ||| word.toNat).testBit p =
      if p < 32 then word.getLsbD p else acc.testBit (p - 32) := by
  rw [Nat.testBit_or, Nat.testBit_shiftLeft, BitVec.testBit_toNat]
  split
  next h => simp [h]
  next h => simp [Nat.le_of_not_lt h]

/-- The block loop puts the stream under the bits it starts from (R145). -/
theorem testBit_foldStream (sp : SamplePoint) (b : Nat) (x : Word) (acc p : Nat) :
    (foldStream sp b x acc).1.testBit p =
      if p < 32 * b then streamBit sp b x p else acc.testBit (p - 32 * b) := by
  induction b generalizing x acc with
  | zero => rfl
  | succ b ih =>
    rw [foldStream, ih]
    by_cases hlow : p < 32 * b
    · rw [if_pos hlow, if_pos (by omega), streamBit_succ sp x hlow]
    · rw [if_neg hlow, testBit_shiftLeft_or_toNat]
      by_cases hfirst : p < 32 * (b + 1)
      · rw [if_pos hfirst, if_pos (by omega), streamBit_first sp x (by omega) hfirst]
      · rw [if_neg hfirst, if_neg (by omega), Nat.sub_sub, Nat.mul_succ]

/-- The block loop steps the register once per block (R145). -/
theorem foldStream_xs (sp : SamplePoint) (b : Nat) (x : Word) (acc : Nat) :
    (foldStream sp b x acc).2 = xsAfter b x := by
  induction b generalizing x acc with
  | zero => rfl
  | succ b ih => rw [foldStream, ih]; rfl

/-! ### The chunks and the XOR reduce (R144, R145) -/

/-- The stream is cut into chunks with nothing left over: both are the LCM of `w` and 32 (R144). -/
theorem mul_foldChunks (w : Nat) : w * foldChunks w = 32 * foldBlocks w := by
  rw [foldChunks, foldBlocks, ← Nat.mul_div_assoc w (Nat.gcd_dvd_right w 32),
    ← Nat.mul_div_assoc 32 (Nat.gcd_dvd_left w 32), Nat.mul_comm]

/-- A bit position of a chunk lies in the stream. -/
theorem chunk_position_lt {w j b : Nat} (hj : j < foldChunks w) (hb : b < w) :
    w * (foldChunks w - 1 - j) + b < 32 * foldBlocks w :=
  calc w * (foldChunks w - 1 - j) + b
    _ < w * (foldChunks w - 1 - j + 1) := Nat.add_lt_add_left hb _
    _ ≤ w * foldChunks w := Nat.mul_le_mul_left w (by omega)
    _ = 32 * foldBlocks w := mul_foldChunks w

theorem chunkAt_eq_mod (w chunks acc j : Nat) :
    chunkAt w chunks acc j = (acc >>> (w * (chunks - 1 - j))) % 2 ^ w :=
  Nat.and_two_pow_sub_one_eq_mod _ _

/-- Chunk `j` is the `j`-th slice from the left (R145). -/
theorem testBit_chunkAt {w b : Nat} (chunks acc j : Nat) (hb : b < w) :
    (chunkAt w chunks acc j).testBit b = acc.testBit (w * (chunks - 1 - j) + b) := by
  rw [chunkAt_eq_mod, Nat.testBit_mod_two_pow, Nat.testBit_shiftRight, decide_eq_true hb,
    Bool.true_and]

theorem chunkAt_lt (w chunks acc j : Nat) : chunkAt w chunks acc j < 2 ^ w := by
  rw [chunkAt_eq_mod]
  exact Nat.mod_lt _ (Nat.two_pow_pos w)

/-- Each bit of the XOR of the chunks is the parity of the chunks' bits (R145). -/
theorem testBit_xorReduce (w chunks acc n b : Nat) :
    (xorReduce w chunks acc n).testBit b =
      (List.range n).foldl (fun par j => par ^^ (chunkAt w chunks acc j).testBit b) false := by
  induction n with
  | zero => exact Nat.zero_testBit b
  | succ n ih => rw [xorReduce, Nat.testBit_xor, ih, List.range_succ, List.foldl_concat]

theorem xorReduce_lt (w chunks acc n : Nat) : xorReduce w chunks acc n < 2 ^ w := by
  induction n with
  | zero => exact Nat.two_pow_pos w
  | succ n ih => exact Nat.xor_lt_two_pow ih (chunkAt_lt w chunks acc n)

/-! ### The output of one BF_NEXT (R145) -/

theorem bfOutput_lt (sp : SamplePoint) (w : Nat) (x : Word) : (bfOutput sp w x).1 < 2 ^ w :=
  xorReduce_lt _ _ _ _

theorem bfOutput_xs (sp : SamplePoint) (w : Nat) (x : Word) :
    (bfOutput sp w x).2 = xsAfter (foldBlocks w) x :=
  foldStream_xs _ _ _ _

/-- Each bit of `V` is the parity of the stream's bits at its place in the chunks (R145). -/
theorem testBit_bfOutput (sp : SamplePoint) {w b : Nat} (x : Word) (hb : b < w) :
    (bfOutput sp w x).1.testBit b =
      (List.range (foldChunks w)).foldl
        (fun par j => par ^^ streamBit sp (foldBlocks w) x (w * (foldChunks w - 1 - j) + b))
        false := by
  rw [bfOutput, testBit_xorReduce]
  refine List.foldl_ext _ _ _ fun par j hj => ?_
  have hpos := chunk_position_lt (List.mem_range.1 hj) hb
  rw [testBit_chunkAt _ _ _ hb, testBit_foldStream, if_pos hpos]

/-- `V` fits the wide register `R` (R6, R145). -/
theorem bfOutput_lt_nbits {c : Config} {w : Nat} (sp : SamplePoint) (x : Word) (hw : w ≤ c.nbits) :
    (bfOutput sp w x).1 < 2 ^ (32 * c.nwords) :=
  Nat.lt_of_lt_of_le (bfOutput_lt sp w x) (Nat.pow_le_pow_right (by decide) hw)

/-- Settles O32: the width check decides the commit, and `V` is described bit by bit by
`testBit_bfOutput`. -/
theorem bfNextFoldsTheStream : Obligations.BfNextFoldsTheStream := by
  rintro s sp i w hi rfl
  refine ⟨fun hw => ?_, fun h0 hmax hn => ⟨(bfOutput sp s.bfWsize.toNat s.xs).1,
    (bfOutput sp s.bfWsize.toNat s.xs).2, ?_, ?_, bfOutput_lt _ _ _, bfOutput_xs _ _ _,
    fun b => testBit_bfOutput sp s.xs⟩⟩
  · rw [exec_bfNext s hi, bfNextRun_of_illegal_width sp hw]
    rfl
  · rw [exec_bfNext s hi, bfNextRun_of_legal_width sp h0 hmax]
    rfl
  · exact wideVal_wideOfNat_of_lt (bfOutput_lt_nbits sp s.xs (hmax.trans hn))

end Machine

end Sys2Proof
end

section
/-! ## POWMOD and JACOBI (42_powmod.md) -/

namespace Sys2Proof.Machine

/-- A residue modulo `N` fits the wide register `R`, since `N` has the same width (R38). -/
theorem wideVal_wideOfNat_of_lt_valN {s : State} {v : Nat} (hwf : Wide.wf s.cfg.nwords s.regN)
    (h : v < s.valN) : wideVal (wideOfNat s.cfg.nwords v) = v := by
  have hN : s.valN < 2 ^ (32 * s.cfg.nwords) := hwf ▸ wideVal_lt s.regN
  exact wideVal_wideOfNat_of_lt (h.trans hN)

/-! ### POWMOD (R170) -/

theorem exec_powmod (s : State) : exec .powmod s = .next (finish (powmodRun s) s) := rfl

theorem powmodRun_of_zero {s : State} (h : s.valN = 0) :
    powmodRun s = .error .invalidModulus := if_pos h

theorem powmodRun_of_ne_zero {s : State} (h : s.valN ≠ 0) :
    powmodRun s = .ok
      { r := some (wideOfNat s.cfg.nwords (powmod s.valA s.valE s.valN)) } := if_neg h

/-- Settles O36: the modulus check decides the commit, and the power is `powmod_eq`. -/
theorem powmodCommitsThePower : Obligations.PowmodCommitsThePower := by
  refine fun s => ⟨fun h0 => ?_, fun hN hwf =>
    ⟨wideOfNat s.cfg.nwords (powmod s.valA s.valE s.valN), ?_, wideOfNat_length _ _, ?_⟩⟩
  · rw [exec_powmod, powmodRun_of_zero h0]
    rfl
  · rw [exec_powmod, powmodRun_of_ne_zero hN]
    rfl
  · rw [wideVal_wideOfNat_of_lt_valN hwf (powmod_lt (Nat.pos_of_ne_zero hN)), powmod_eq]

/-! ### JACOBI (R181, R182) -/

/-- The residue of a symbol is reduced (R181). -/
theorem JSymbol.modN_lt (j : JSymbol) {n : Nat} (h : 0 < n) : j.modN n < n := by
  have hlt : (j.modN n : Int) < n := by
    rw [j.modN_eq h]
    exact Int.emod_lt_of_pos _ (Int.natCast_pos.2 h)
  exact Int.ofNat_lt.1 hlt

/-- The three values of a symbol with their codes in `STATUS.JSYM` (R181). -/
theorem JSymbol.toInt_enc_cases (j : JSymbol) :
    (j.toInt = 0 ∧ j.enc = 0b00) ∨ (j.toInt = 1 ∧ j.enc = 0b01) ∨
      (j.toInt = -1 ∧ j.enc = 0b11) := by
  cases j with
  | zero => exact .inl ⟨rfl, rfl⟩
  | plus => exact .inr (.inl ⟨rfl, rfl⟩)
  | minus => exact .inr (.inr ⟨rfl, rfl⟩)

theorem exec_jacobi (s : State) : exec .jacobi s = .next (finish (jacobiRun s) s) := rfl

theorem jacobiRun_of_even {s : State} (h : s.valN = 0 ∨ s.valN % 2 = 0) :
    jacobiRun s = .error .invalidModulus := if_pos h

theorem jacobiRun_of_odd {s : State} (h : s.valN % 2 = 1) :
    jacobiRun s = .ok
      { r := some (wideOfNat s.cfg.nwords ((jacobi s.valA s.valN).modN s.valN))
        jsym := some (jacobi s.valA s.valN).enc } :=
  if_neg (by omega)

/-- Settles O37: the modulus check decides the commit, `jacobi_eq` identifies the symbol, and its
residue and code are those of the symbol's value. -/
theorem jacobiCommitsTheSymbol : Obligations.JacobiCommitsTheSymbol := by
  refine fun s => ⟨fun heven => ?_, fun hodd hwf =>
    ⟨wideOfNat s.cfg.nwords ((jacobi s.valA s.valN).modN s.valN), (jacobi s.valA s.valN).enc,
      ?_, wideOfNat_length _ _, ?_, ?_⟩⟩
  · rw [exec_jacobi, jacobiRun_of_even heven]
    rfl
  · rw [exec_jacobi, jacobiRun_of_odd hodd]
    rfl
  · have hpos : 0 < s.valN := by omega
    rw [wideVal_wideOfNat_of_lt_valN hwf (JSymbol.modN_lt _ hpos), JSymbol.modN_eq _ hpos,
      jacobi_eq _ hodd]
  · rw [← jacobi_eq s.valA hodd]
    exact JSymbol.toInt_enc_cases _

end Sys2Proof.Machine
end

section
/-! ## The start of the witness tests (43_miller_rabin.md §2, 44_solovay_strassen.md §2) -/

namespace Sys2Proof.Machine

/-- Before its first answer every test runs the same start (R200, R230). -/
theorem exec_eq_testStart {i : Instr} {s : State} (ht : i.isTest = true) (ha : s.ans = none) :
    exec i s = .next (testStart i.count s) := by
  have hmr (pol : Policy) (k : Nat) : mrTest pol k s = testStart k s := by rw [mrTest, ha]
  have hss (k : Nat) : ssTest k s = testStart k s := by rw [ssTest, ha]
  cases i with
  | mrTestS k => exact congrArg _ (hmr .s k)
  | mrTestCA k => exact congrArg _ (hmr .ca k)
  | mrTestCO k => exact congrArg _ (hmr .co k)
  | ssTest k => exact congrArg _ (hss k)
  | nop | bfInit | bfNextT2 | bfNextT3 | powmod | jacobi => cases ht

/-- The candidates that the edge policy decides, with their verdicts (R201, R231). -/
theorem edge_eq_some_iff {n : Nat} {b : Bool} (hn : n ≠ 0) :
    edge n = some b ↔ (b = false ∧ n = 1) ∨ (b = true ∧ n = 2) ∨ (b = true ∧ n = 3) ∨
      (b = false ∧ 4 ≤ n ∧ n % 2 = 0) := by
  unfold edge
  split
  next h1 => subst h1; simp [eq_comm]
  next h1 =>
    split
    next h2 => subst h2; simp [eq_comm]
    next h2 =>
      split
      next h3 => subst h3; simp [eq_comm]
      next h3 =>
        have h4 : 4 ≤ n := by omega
        split
        next heven => simp [h1, h2, h3, h4, heven, eq_comm]
        next hodd => simp [h1, h2, h3, hodd]

/-- A verdict of the edge policy ends the test without a round (R201, R231). -/
theorem testStart_of_edge {k : Nat} {s : State} {b : Bool} (hk : k ≠ 0) (hn : s.valN ≠ 0)
    (he : edge s.valN = some b) :
    testStart k s = succeed { prime := some b, rounds := some 0 } s := by
  rw [testStart, if_neg hk, if_neg hn, he]

/-- Settles O42: all four tests share `testStart`, and the listed candidates are those that `edge`
decides. -/
theorem testsFollowTheEdgePolicy : Obligations.TestsFollowTheEdgePolicy := by
  intro i s b ht ha hk hcand
  have hn : s.valN ≠ 0 := by omega
  rw [exec_eq_testStart ht ha, testStart_of_edge hk hn ((edge_eq_some_iff hn).2 hcand)]
  rfl

end Sys2Proof.Machine
end

section
/-! ## Illegal words and the error commit (60_exceptions.md) -/

namespace Sys2Proof.Machine

/-! ### An illegal word (R251) -/

/-- The engine moves when the schedule is empty or names it next (R12). -/
theorem step_of_engine {s : State} (hd : s.turns = [] ∨ s.turns.head? = some .engine) :
    step s = engineTurn s.moving := by
  obtain ht | ⟨ts, ht⟩ := hd.imp_right List.head?_eq_some_iff.1
  · have hm : s.moving = s := by rw [State.moving, ht, List.tail_nil, ← ht]
    rw [step, ht, hm]
  · rw [step, State.moving, ht]
    rfl

/-- A running engine runs the accepted word (R126, R130). -/
theorem engineTurn_of_run {s : State} {c : Word} (hr : s.rstN = true) (hp : s.phase = .run)
    (hc : s.cur = some c) : engineTurn s = runWord c s := by
  rw [engineTurn, if_pos hr, hp, hc]

/-- A word that is not legal ends as an illegal command (R98, R251). -/
theorem runWord_of_not_legal {c : Word} (s : State) (hl : legal c = false) :
    runWord c s = .next (runIllegal s) := by
  rw [runWord]
  cases hd : decode c with
  | error e => rfl
  | ok i =>
    have hlegal : legal c = true := (legalWordsMatchARow c).1.1 ⟨i, hd⟩
    simp [hl] at hlegal

/-- Settles O23: the step is the engine's turn on a word that is not legal, and `runIllegal` is the
error commit written out. -/
theorem illegalWordCommitsError : Obligations.IllegalWordCommitsError := by
  intro s c hr hp hc hl hd
  rw [step_of_engine hd, engineTurn_of_run (s := s.moving) hr hp hc, runWord_of_not_legal _ hl]
  rfl

/-! ### The error commit (R253) -/

/-- What the error commit of a code writes to `ROUNDS` in round `r`; nothing for the codes that no
legal test raises (R253). -/
def errorRounds (r : Nat) : ErrCode → Option (BitVec 16)
  | .illegalCommand | .invalidWidth | .invalidModulus => none
  | .invalidWitnessCount | .invalidCandidate => some 0
  | .witnessRange => some (BitVec.ofNat 16 r)

/-- How the sequencer's step can stand to errors: it ends without one, or it is the error commit of
a code, with `ROUNDS` in its set only when the command is a test (R253). Only the hidden `ans` may
differ otherwise. -/
inductive ErrorCase (test : Prop) (s : State) : State → Prop where
  | noError {t : State} (h : t.phase = .idle → t.err = false) : ErrorCase test s t
  | raises (code : ErrCode) (a : Option Nat) (ht : errorRounds s.round code ≠ none → test) :
      ErrorCase test s (raise code (errorRounds s.round code) { s with ans := a })

theorem succeed_errorCase (test : Prop) (s u : State) (p : CommitSet) :
    ErrorCase test s (succeed p u) := .noError fun _ => rfl

theorem requestWitness_errorCase (test : Prop) (s u : State) :
    ErrorCase test s (requestWitness u) := .noError fun h => by cases h

/-- A command without draws raises only codes that leave `ROUNDS` alone (R253). -/
theorem finish_errorCase (test : Prop) {s : State} {res : Except ErrCode CommitSet}
    (h : ∀ code, res = .error code → errorRounds s.round code = none) :
    ErrorCase test s (finish res s) := by
  cases res with
  | ok p => exact succeed_errorCase test s s p
  | error code =>
    have hnone := h code rfl
    have hraise := ErrorCase.raises (test := test) code s.ans (absurd hnone)
    rwa [hnone] at hraise

theorem bfNextRun_error {sp : SamplePoint} {s : State} {code : ErrCode}
    (h : bfNextRun sp s = .error code) : code = .invalidWidth := by
  unfold bfNextRun at h
  split at h <;> cases h
  rfl

theorem powmodRun_error {s : State} {code : ErrCode} (h : powmodRun s = .error code) :
    code = .invalidModulus := by
  unfold powmodRun at h
  split at h <;> cases h
  rfl

theorem jacobiRun_error {s : State} {code : ErrCode} (h : jacobiRun s = .error code) :
    code = .invalidModulus := by
  unfold jacobiRun at h
  split at h <;> cases h
  rfl

/-- The start of a test raises code 3 or 4 with no round counted (R252, R253). -/
theorem testStart_errorCase {test : Prop} (ht : test) (k : Nat) (s : State) :
    ErrorCase test s (testStart k s) := by
  unfold testStart
  split
  · exact .raises .invalidWitnessCount s.ans fun _ => ht
  · split
    · exact .raises .invalidCandidate s.ans fun _ => ht
    · split
      · exact succeed_errorCase ..
      · exact requestWitness_errorCase ..

/-- An answer to `MR_TEST` raises at most code 6 with the rounds before it (R253, R262). -/
theorem mrAnswer_errorCase {test : Prop} (ht : test) (pol : Policy) (k a : Nat) (s : State) :
    ErrorCase test s (mrAnswer pol k a { s with ans := none }) := by
  unfold mrAnswer
  split
  · exact .raises .witnessRange none fun _ => ht
  · split
    · exact succeed_errorCase ..
    · split
      · exact requestWitness_errorCase ..
      · exact succeed_errorCase ..

/-- An answer to `SS_TEST` raises at most code 6 with the rounds before it (R253, R262). -/
theorem ssAnswer_errorCase {test : Prop} (ht : test) (k a : Nat) (s : State) :
    ErrorCase test s (ssAnswer k a { s with ans := none }) := by
  unfold ssAnswer
  split
  · exact .raises .witnessRange none fun _ => ht
  · split
    · exact succeed_errorCase ..
    · split
      · exact requestWitness_errorCase ..
      · exact succeed_errorCase ..

theorem mrTest_errorCase {test : Prop} (ht : test) (pol : Policy) (k : Nat) (s : State) :
    ErrorCase test s (mrTest pol k s) := by
  unfold mrTest
  split
  · exact testStart_errorCase ht k s
  · exact mrAnswer_errorCase ht pol k _ s

theorem ssTest_errorCase {test : Prop} (ht : test) (k : Nat) (s : State) :
    ErrorCase test s (ssTest k s) := by
  unfold ssTest
  split
  · exact testStart_errorCase ht k s
  · exact ssAnswer_errorCase ht k _ s

/-- Every command's step stands to errors as `ErrorCase` says (R250, R253). -/
theorem exec_errorCase {i : Instr} {s t : State} (h : exec i s = .next t) :
    ErrorCase (i.isTest = true) s t := by
  cases i with
  | nop | bfInit => cases h; exact succeed_errorCase ..
  | bfNextT2 | bfNextT3 =>
    cases h
    exact finish_errorCase _ fun code hc => by rw [bfNextRun_error hc, errorRounds]
  | powmod =>
    cases h
    exact finish_errorCase _ fun code hc => by rw [powmodRun_error hc, errorRounds]
  | jacobi =>
    cases h
    exact finish_errorCase _ fun code hc => by rw [jacobiRun_error hc, errorRounds]
  | mrTestS k | mrTestCA k | mrTestCO k => cases h; exact mrTest_errorCase rfl _ k s
  | ssTest k => cases h; exact ssTest_errorCase rfl k s

/-- An error of any word, legal or not, is the error commit of its code, which writes `ROUNDS` only
for a legal test (R251, R253). -/
theorem runWord_error {c : Word} {s t : State} (h : runWord c s = .next t)
    (hp : t.phase = .idle) (he : t.err = true) :
    ∃ (code : ErrCode) (a : Option Nat),
      t = raise code (errorRounds s.round code) { s with ans := a } ∧
      (errorRounds s.round code ≠ none → ∃ i : Instr, decode c = .ok i ∧ i.isTest = true) := by
  rw [runWord] at h
  cases hd : decode c with
  | error e =>
    rw [hd] at h
    cases h
    exact ⟨.illegalCommand, s.ans, rfl, absurd rfl⟩
  | ok i =>
    rw [hd] at h
    cases exec_errorCase h with
    | noError hno => simp [hno hp] at he
    | raises code a ht => exact ⟨code, a, rfl, fun hne => ⟨i, rfl, ht hne⟩⟩

/-- Codes 3 and 4 are raised before any round (R253). -/
theorem errorRounds_of_start_code {code : ErrCode} (r : Nat) (h : code.code = 3 ∨ code.code = 4) :
    errorRounds r code = some 0 := by
  cases code with
  | invalidWitnessCount | invalidCandidate => rfl
  | illegalCommand | invalidWidth | invalidModulus | witnessRange => simp [ErrCode.code] at h

/-- Code 6 is raised in the current round (R253). -/
theorem errorRounds_of_witness_code {code : ErrCode} (r : Nat) (h : code.code = 6) :
    errorRounds r code = some (BitVec.ofNat 16 r) := by
  cases code with
  | witnessRange => rfl
  | illegalCommand | invalidWidth | invalidModulus | invalidWitnessCount | invalidCandidate =>
    simp [ErrCode.code] at h

/-- `ROUNDS` after an error commit. -/
theorem raise_rounds (code : ErrCode) (rs : Option (BitVec 16)) (s : State) :
    (raise code rs s).rounds = rs.getD s.rounds := rfl

/-- Settles O24: an error is `raise` of one code (`runWord_error`), whose set holds `PRIME`, `JSYM`
and the code's `errorRounds`. -/
theorem errorCommitWritesOnlyItsSet : Obligations.ErrorCommitWritesOnlyItsSet := by
  intro c s t h hp he
  obtain ⟨code, a, rfl, htest⟩ := runWord_error h hp he
  refine ⟨rfl, rfl, rfl, rfl, ⟨code, rfl⟩, fun hc => ?_, fun hc => ?_, fun hno => ?_,
    rfl, rfl, rfl, rfl, rfl, rfl, rfl, rfl, rfl⟩
  · rw [raise_rounds, errorRounds_of_start_code s.round hc]
    rfl
  · rw [raise_rounds, errorRounds_of_witness_code s.round hc]
    rfl
  · have hnone : errorRounds s.round code = none := by_contra fun hne => hno (htest hne)
    rw [raise_rounds, hnone]
    rfl

end Sys2Proof.Machine
end

section
/-! ## The soft reset and the witness wait (70_reset_and_hazards.md R290, R292, R300) -/

namespace Sys2Proof.Machine

open Sys2Proof

/-- A register write leaves the witness wait only as a soft reset: the other cases keep the phase,
and an acceptance needs an idle engine (R121, R292). -/
theorem softReset_of_writeCase_leaves_wait {s t : State} {r : Reg} {v : Word}
    (h : WriteCase s r v t) (hwait : s.phase = .waitWitness) (hleft : t.phase ≠ .waitWitness) :
    r = .ctrl ∧ v.getLsbD 31 = true := by
  cases h with
  | softReset hr hv => exact ⟨hr, hv⟩
  | accepted hidle =>
    have hp : s.phase = .idle := (not_busy_iff s).1 hidle
    rw [hwait] at hp
    cases hp
  | readOnly | dropped | status | irqEn | bfWsize | bfSeed | wideA | wideE | wideN =>
    exact absurd hwait hleft

/-- A bus write leaves the witness wait only as a soft reset of `CTRL` at 0x008 (R292). -/
theorem softReset_of_busWrite_leaves_wait {s : State} {off : BitVec 16} {bytes : Nat} {v : Word}
    (hwait : s.phase = .waitWitness) (hleft : (busWrite off bytes v s).phase ≠ .waitWitness) :
    off = 0x008 ∧ bytes = 4 ∧ v.getLsbD 31 = true := by
  rcases busWrite_cases off bytes v s with ⟨-, e⟩ | ⟨r, ht, e⟩
  · rw [e] at hleft
    exact absurd hwait hleft
  · rw [e] at hleft
    obtain ⟨rfl, hv⟩ := softReset_of_writeCase_leaves_wait (writeReg_cases s r v) hwait hleft
    obtain ⟨hbytes, hoff, -⟩ := busTarget_eq_some ht
    exact ⟨hoff, hbytes, hv⟩

/-- Settles O2: the write by `busWrite_ctrl_of_reset`; reads and `WAIT` touch the host's side only,
and a write that leaves the wait is the soft reset. -/
theorem softResetWriteResetsTheBlock : Obligations.SoftResetWriteResetsTheBlock := by
  refine ⟨fun s v hv => busWrite_ctrl_of_reset s hv, fun st rest s hwait hleft => ?_⟩
  cases st with
  | read | wait => exact absurd hwait hleft
  | write off bytes v =>
    obtain ⟨rfl, rfl, hv⟩ :=
      softReset_of_busWrite_leaves_wait (s := { s with script := rest }) hwait hleft
    exact ⟨v, rfl, hv⟩

end Sys2Proof.Machine
end

section
/-! ## Encoding: the words of the commands and their byte lanes (30_encoding.md) -/

namespace Sys2Proof

/-! ### The encoder writes the fields, the decoder reads them back (R91, R96) -/

/-- The fields of a word put together from them (R91). -/
theorem fields_append (k : BitVec 16) (rsv md : BitVec 4) (op : BitVec 8) :
    kField (k ++ rsv ++ md ++ op) = k ∧ rsvField (k ++ rsv ++ md ++ op) = rsv ∧
      modField (k ++ rsv ++ md ++ op) = md ∧ opField (k ++ rsv ++ md ++ op) = op := by
  refine ⟨?_, ?_, ?_, BitVec.extractLsb'_append_eq_right⟩
  · rw [kField, BitVec.extractLsb'_append_eq_of_le (by decide),
      BitVec.extractLsb'_append_eq_of_le (by decide)]
    exact BitVec.extractLsb'_append_eq_left
  · rw [rsvField, BitVec.extractLsb'_append_eq_of_le (by decide),
      BitVec.extractLsb'_append_eq_of_le (by decide)]
    exact BitVec.extractLsb'_append_eq_right
  · rw [modField, BitVec.extractLsb'_append_eq_of_le (by decide)]
    exact BitVec.extractLsb'_append_eq_right

/-- A count fits its field exactly when the command is well-formed (R95). -/
theorem Instr.wellFormed_iff {i : Instr} : i.WellFormed ↔ i.count ≤ 65535 := by
  cases i <;> simp [Instr.WellFormed, Instr.wf, Instr.count, countFits]

theorem encodedBy_encode {i : Instr} (h : i.WellFormed) : i.EncodedBy (encode i) := by
  obtain ⟨hk, hrsv, hmd, hop⟩ := fields_append (BitVec.ofNat 16 i.count) 0 i.md i.op
  have hle := Instr.wellFormed_iff.1 h
  refine ⟨hrsv, hop, hmd, ?_⟩
  rw [encode, hk, BitVec.toNat_ofNat, Nat.mod_eq_of_lt (by omega)]

/-- The encoding is the only word with the command's fields. -/
theorem encode_eq_of_encodedBy {c : Word} {i : Instr} (h : i.EncodedBy c) : encode i = c := by
  obtain ⟨hrsv, hop, hmd, hk⟩ := h
  rw [encode, ← hk, ← hmd, ← hop, BitVec.ofNat_toNat, BitVec.setWidth_eq, ← hrsv]
  exact append_fields c

theorem wellFormed_of_encodedBy {c : Word} {i : Instr} (h : i.EncodedBy c) : i.WellFormed := by
  obtain ⟨-, -, -, hk⟩ := h
  have hlt := (kField c).isLt
  exact Instr.wellFormed_iff.2 (by omega)

/-- The lanes of a word make up the word (R62). -/
theorem wordOfLanes_extract (w : Word) :
    wordOfLanes (w.extractLsb' 0 8) (w.extractLsb' 8 8) (w.extractLsb' 16 8)
      (w.extractLsb' 24 8) = w := by
  rw [wordOfLanes, BitVec.extractLsb'_append_extractLsb'_eq_extractLsb' (by rfl),
    BitVec.extractLsb'_append_extractLsb'_eq_extractLsb' (by rfl),
    BitVec.extractLsb'_append_extractLsb'_eq_extractLsb' (by rfl)]
  exact BitVec.extractLsb'_eq_self

/-- Decoding the lanes of a word is decoding the word (R62, R90). -/
theorem decodeBytes_wordLanes (w : Word) (rest : List Byte) :
    decodeBytes (wordLanes w ++ rest) = (decode w).map (·, rest) :=
  congrArg (fun c => (decode c).map (·, rest)) (wordOfLanes_extract w)

/-- Settles O14: the encoding holds the command's fields, and its lanes make it up. -/
theorem decodeOfEncodeIsIdentity : Obligations.DecodeOfEncodeIsIdentity := by
  intro i hi
  have hdec : decode (encode i) = .ok i := decode_eq_ok_iff.2 (encodedBy_encode hi)
  exact ⟨hdec, fun rest => by rw [decodeBytes_wordLanes, hdec]; rfl⟩

/-- Settles O15: a decoded word holds its command's fields, all of them. -/
theorem encodeOfDecodedIsTheWord : Obligations.EncodeOfDecodedIsTheWord := by
  intro c i h
  have hc := decode_eq_ok_iff.1 h
  exact ⟨wellFormed_of_encodedBy hc, encode_eq_of_encodedBy hc⟩

/-! ### The rows of the opcode map (R96) -/

/-- Rows that agree on the bits both of them fix are the same row. -/
theorem opcodeRow_eq_of_patterns_agree :
    ∀ r₁ ∈ opcodeRows, ∀ r₂ ∈ opcodeRows,
      r₁.pattern &&& r₁.mask &&& r₂.mask = r₂.pattern &&& r₂.mask &&& r₁.mask → r₁ = r₂ := by
  decide

/-- Two patterns that one word matches agree on the bits both of them fix. -/
theorem patterns_agree_of_matches {r₁ r₂ : OpcodeRow} {c : Word} (h₁ : r₁.Matches c)
    (h₂ : r₂.Matches c) :
    r₁.pattern &&& r₁.mask &&& r₂.mask = r₂.pattern &&& r₂.mask &&& r₁.mask := by
  rw [← h₁, ← h₂, BitVec.and_assoc, BitVec.and_assoc, BitVec.and_comm r₁.mask]

/-- Settles O17: the ten rows differ on bits that both fix, and a decoded command's row matches by
`Instr.row_matches_of_encodedBy`. -/
theorem opcodeRowsAreDisjoint : Obligations.OpcodeRowsAreDisjoint :=
  ⟨fun _ r₁ r₂ hr₁ hr₂ h₁ h₂ =>
      opcodeRow_eq_of_patterns_agree r₁ hr₁ r₂ hr₂ (patterns_agree_of_matches h₁ h₂),
    fun _ i h => ⟨i.row_mem_opcodeRows, Instr.row_matches_of_encodedBy (decode_eq_ok_iff.1 h)⟩⟩

/-! ### The assembled word (R101) -/

/-- A natural number that fits a field is its own zero-extension. -/
theorem setWidth_ofNat_of_lt {m n x : Nat} (h : x < 2 ^ m) (hmn : m ≤ n) :
    (BitVec.ofNat m x).setWidth n = BitVec.ofNat n x := by
  apply BitVec.eq_of_toNat_eq
  have hx : x < 2 ^ n := h.trans_le (Nat.pow_le_pow_right (by decide) hmn)
  rw [BitVec.toNat_setWidth, BitVec.toNat_ofNat, BitVec.toNat_ofNat, Nat.mod_eq_of_lt h]

/-- Settles O18: the fields joined by OR, the reserved one zero. -/
theorem assembledWordLayout : Obligations.AssembledWordLayout := by
  intro i hi
  have hle := Instr.wellFormed_iff.1 hi
  have hk : (BitVec.ofNat 16 i.count).setWidth 32 = BitVec.ofNat 32 i.count :=
    setWidth_ofNat_of_lt (by omega) (by decide)
  have hjoin := BitVec.setWidth_append_append_append_eq_shiftLeft_setWidth_or
    (b := BitVec.ofNat 16 i.count) (b' := (0 : BitVec 4)) (b'' := i.md) (b''' := i.op) (w'''' := 32)
  rw [hk] at hjoin
  rw [encode]
  simpa using hjoin

/-- Settles O19: each sample word is decoded by evaluation. -/
theorem sampleWordsDecode : Obligations.SampleWordsDecode := by
  unfold Obligations.SampleWordsDecode
  decide

end Sys2Proof
end

section
/-! ## The machine's invariant (`State.Inv`): at reset and along every step -/

namespace Sys2Proof.Machine

open Sys2Proof

/-! ### At reset (R45) -/

/-- The block's reset state meets the invariant at every legal configuration. -/
theorem resetBlock_inv {s : State} (hc : s.cfg.Ok) : (resetBlock s).Inv where
  cfgOk := hc
  wfA := List.length_replicate
  wfE := List.length_replicate
  wfN := List.length_replicate
  wfR := List.length_replicate
  doneIdle := nofun
  jsymLegal := by rw [resetBlock_jsym]; decide
  codeLegal := Nat.zero_le 6
  errIffCode := ⟨nofun, fun h => absurd rfl h⟩
  errClears := nofun
  curIsCmd := nofun
  answerRuns := fun h => absurd rfl h
  answerFits := nofun
  waitDraws := nofun
  answerDraws := fun h => absurd rfl h
  pendEmpty := nofun
  freshStart := nofun
  heldInReset := fun _ => rfl

/-- The reset state is what the reset action leaves of itself (R290). -/
theorem resetWith_inv {c : Config} (hc : c.Ok) : (State.resetWith c).Inv :=
  resetBlock_inv (s := State.resetWith c) hc

/-- Settles O54: the reset state is a reset block, and the reference configuration is legal. -/
theorem invariantHoldsAtReset : Obligations.InvariantHoldsAtReset :=
  ⟨fun _ => resetWith_inv, resetWith_inv (by decide)⟩

/-! ### What the invariant reads of the engine -/

/-- The fields of the engine that the invariant reads, apart from the storage and `DONE`, are the
same in both states. -/
abbrev SameEngine (s t : State) : Prop :=
  t.cfg = s.cfg ∧ t.err = s.err ∧ t.prime = s.prime ∧ t.jsym = s.jsym ∧ t.errcode = s.errcode ∧
    t.cmd = s.cmd ∧ t.phase = s.phase ∧ t.cur = s.cur ∧ t.round = s.round ∧ t.acc = s.acc ∧
    t.pend = s.pend ∧ t.ans = s.ans

theorem sameEngine_refl (s : State) : SameEngine s s :=
  ⟨rfl, rfl, rfl, rfl, rfl, rfl, rfl, rfl, rfl, rfl, rfl, rfl⟩

/-- `Drawing` reads the accepted word, the round and the candidate only (R261). -/
theorem State.Drawing.congr {s t : State} (h : s.Drawing) (hcmd : t.cmd = s.cmd)
    (hround : t.round = s.round) (hn : t.regN = s.regN) : t.Drawing := by
  have hval : t.valN = s.valN := congrArg wideVal hn
  obtain ⟨hcommand, hodd, hlarge⟩ := h
  rw [← hcmd, ← hround] at hcommand
  rw [← hval] at hodd hlarge
  exact ⟨hcommand, hodd, hlarge⟩

/-- An engine that has drawn an answer or waits for one is busy. -/
theorem State.Inv.busy_of_ans {s : State} (h : s.Inv) (ha : s.ans ≠ none) : s.busy = true :=
  (busy_iff s).2 (by simp [h.answerRuns ha])

/-- The invariant passes to a state with the same engine: canonical storage, `DONE` not newly set,
the candidate of a running command kept. -/
theorem State.Inv.of_sameEngine {s t : State} (h : s.Inv) (e : SameEngine s t) (hwf : Memory.wf t)
    (hdone : t.done = true → s.done = true) (hn : s.busy = true → t.regN = s.regN)
    (hheld : t.rstN = false → t = resetBlock t) : t.Inv := by
  obtain ⟨hcfg, herr, hprime, hjsym, hcode, hcmd, hphase, hcur, hround, hacc, hpend, hans⟩ := e
  obtain ⟨hA, hE, hN, hR⟩ := hwf
  have hbusy : t.busy = s.busy := by rw [State.busy, State.busy, hphase]
  have drawing (hb : s.busy = true) (hd : s.Drawing) : t.Drawing := hd.congr hcmd hround (hn hb)
  exact
  { cfgOk := hcfg ▸ h.cfgOk
    wfA := hA
    wfE := hE
    wfN := hN
    wfR := hR
    doneIdle := fun hd => hbusy.trans (h.doneIdle (hdone hd))
    jsymLegal := hjsym ▸ h.jsymLegal
    codeLegal := hcode ▸ h.codeLegal
    errIffCode := by rw [herr, hcode]; exact h.errIffCode
    errClears := by rw [herr, hprime, hjsym]; exact h.errClears
    curIsCmd := by rw [hbusy, hcur, hcmd]; exact h.curIsCmd
    answerRuns := by rw [hans, hphase]; exact h.answerRuns
    answerFits := by rw [hans, hcfg]; exact h.answerFits
    waitDraws := fun hp =>
      have hp : s.phase = .waitWitness := hphase ▸ hp
      drawing ((busy_iff s).2 (by simp [hp])) (h.waitDraws hp)
    answerDraws := fun ha =>
      have ha : s.ans ≠ none := hans ▸ ha
      drawing (h.busy_of_ans ha) (h.answerDraws ha)
    pendEmpty := by rw [hbusy, hpend]; exact h.pendEmpty
    freshStart := by rw [hphase, hans, hround, hacc]; exact h.freshStart
    heldInReset := hheld }

theorem State.Inv.memory_wf {s : State} (h : s.Inv) : Memory.wf s := ⟨h.wfA, h.wfE, h.wfN, h.wfR⟩

/-- The host's side and the schedule are no concern of the invariant (R12). -/
theorem State.Inv.hostSide {s : State} (h : s.Inv) (sc : List HostStmt) (p : Option Response)
    (ts : List Turn) : State.Inv { s with script := sc, resp := p, turns := ts } :=
  h.of_sameEngine (sameEngine_refl s) h.memory_wf id (fun _ => rfl) fun hr =>
    congrArg (fun u : State => { u with script := sc, resp := p, turns := ts }) (h.heldInReset hr)

/-- Out of reset the reset state need not be held (R291). -/
theorem held_of_rstN {t : State} (hr : t.rstN = true) : t.rstN = false → t = resetBlock t :=
  fun h => by simp [hr] at h

/-! ### Host writes (R71) -/

/-- Acceptance keeps the invariant: the command stands at its start (R122). -/
theorem State.Inv.accept {s : State} (h : s.Inv) (hr : s.rstN = true) (c : Word) :
    (accept c s).Inv where
  cfgOk := h.cfgOk
  wfA := h.wfA
  wfE := h.wfE
  wfN := h.wfN
  wfR := h.wfR
  doneIdle := nofun
  jsymLegal := h.jsymLegal
  codeLegal := h.codeLegal
  errIffCode := h.errIffCode
  errClears := h.errClears
  curIsCmd := fun _ => rfl
  answerRuns := fun _ => rfl
  answerFits := nofun
  waitDraws := nofun
  answerDraws := fun ha => absurd rfl ha
  pendEmpty := fun _ => rfl
  freshStart := fun _ _ => ⟨rfl, rfl⟩
  heldInReset := held_of_rstN hr

/-- A register write keeps the invariant: an operand is stored only while no command reads it. -/
theorem writeCase_inv {s t : State} {r : Reg} {v : Word} (h : s.Inv) (hr : s.rstN = true)
    (hw : WriteCase s r v t) : t.Inv := by
  have hwf : Memory.wf t := writeCase_memory_wf h.memory_wf hw
  have same := sameEngine_refl s
  cases hw with
  | accepted => exact h.accept hr v
  | softReset => exact resetBlock_inv h.cfgOk
  | readOnly => exact h
  | status =>
    exact h.of_sameEngine (t := writeStatus v s) same hwf (fun hd => (Bool.and_eq_true_iff.1 hd).1)
      (fun _ => rfl) (held_of_rstN hr)
  | wideN i hidle =>
    exact h.of_sameEngine (t := { s with regN := s.regN.set i v }) same hwf id
      (fun hb => by simp [hidle] at hb) (held_of_rstN hr)
  | dropped | irqEn | bfWsize | bfSeed | wideA | wideE =>
    exact h.of_sameEngine same hwf id (fun _ => rfl) (held_of_rstN hr)

/-! ### The engine's steps and the answers (R124, R261, R262) -/

/-- The codes are 1 to 6 (R250). -/
theorem ErrCode.code_bounds (e : ErrCode) : e.code.toNat ≤ 6 ∧ e.code ≠ 0 := by
  cases e <;> decide

/-- A commit with no answer left over keeps the invariant (R124, R253). -/
theorem State.Inv.commit {s : State} (h : s.Inv) (hr : s.rstN = true) {o : Option ErrCode}
    {p : CommitSet} {l : List Bool}
    (hwf : Memory.wf (commit o { s with pend := p, acc := l, ans := none }))
    (hj : p.jsym ≠ some 0b10) (he : ∀ code, o = some code → ∃ rs, p = errorSet rs) :
    (commit o { s with pend := p, acc := l, ans := none }).Inv where
  cfgOk := h.cfgOk
  wfA := hwf.1
  wfE := hwf.2.1
  wfN := hwf.2.2.1
  wfR := hwf.2.2.2
  doneIdle := fun _ => rfl
  jsymLegal := by
    rw [commit_jsym]
    cases hp : p.jsym with
    | none => exact h.jsymLegal
    | some j => exact fun hjs => hj (hp.trans (congrArg some hjs))
  codeLegal := by
    cases o with
    | none => exact Nat.zero_le 6
    | some code => exact code.code_bounds.1
  errIffCode := by
    cases o with
    | none => exact ⟨nofun, fun hne => absurd rfl hne⟩
    | some code => exact ⟨fun _ => code.code_bounds.2, fun _ => rfl⟩
  errClears := by
    cases o with
    | none => exact nofun
    | some code =>
      obtain ⟨rs, rfl⟩ := he code rfl
      exact fun _ => ⟨rfl, rfl⟩
  curIsCmd := nofun
  answerRuns := fun ha => absurd rfl ha
  answerFits := nofun
  waitDraws := nofun
  answerDraws := fun ha => absurd rfl ha
  pendEmpty := nofun
  freshStart := nofun
  heldInReset := held_of_rstN hr

/-- A request keeps the invariant when the command may draw (R261). -/
theorem State.Inv.request {s : State} (h : s.Inv) (hr : s.rstN = true) (hp : s.phase = .run)
    {r : Nat} {l : List Bool}
    (hd : State.Drawing (requestWitness { s with ans := none, round := r, acc := l })) :
    (requestWitness { s with ans := none, round := r, acc := l }).Inv :=
  have hb : s.busy = true := (busy_iff s).2 (by simp [hp])
  { cfgOk := h.cfgOk
    wfA := h.wfA
    wfE := h.wfE
    wfN := h.wfN
    wfR := h.wfR
    doneIdle := fun hdone => absurd (h.doneIdle hdone) (by simp [hb])
    jsymLegal := h.jsymLegal
    codeLegal := h.codeLegal
    errIffCode := h.errIffCode
    errClears := h.errClears
    curIsCmd := fun _ => h.curIsCmd hb
    answerRuns := fun ha => absurd rfl ha
    answerFits := nofun
    waitDraws := fun _ => hd
    answerDraws := fun _ => hd
    pendEmpty := fun _ => h.pendEmpty hb
    freshStart := nofun
    heldInReset := held_of_rstN hr }

/-- An answer keeps the invariant: it is taken over the port's wires by a command that asked for it
(R262). -/
theorem State.Inv.answer {s : State} (h : s.Inv) (hr : s.rstN = true) (hp : s.phase = .waitWitness)
    (a : Nat) : State.Inv { s with ans := some (portValue s.cfg a), phase := .run } :=
  have hb : s.busy = true := (busy_iff s).2 (by simp [hp])
  have hd : State.Drawing { s with ans := some (portValue s.cfg a), phase := .run } :=
    (h.waitDraws hp).congr rfl rfl rfl
  { cfgOk := h.cfgOk
    wfA := h.wfA
    wfE := h.wfE
    wfN := h.wfN
    wfR := h.wfR
    doneIdle := fun hdone => absurd (h.doneIdle hdone) (by simp [hb])
    jsymLegal := h.jsymLegal
    codeLegal := h.codeLegal
    errIffCode := h.errIffCode
    errClears := h.errClears
    curIsCmd := fun _ => h.curIsCmd hb
    answerRuns := fun _ => rfl
    answerFits := by
      rintro - ⟨rfl⟩
      exact portValue_lt s.cfg a
    waitDraws := nofun
    answerDraws := fun _ => hd
    pendEmpty := fun _ => h.pendEmpty hb
    freshStart := nofun
    heldInReset := held_of_rstN hr }

/-- A running command that is no legal test has taken no answer (R261). -/
theorem State.Inv.ans_eq_none {s : State} (h : s.Inv) {c : Word}
    (hc : s.cur = some c) (hno : ∀ i, decode c = .ok i → i.isTest = false) : s.ans = none := by
  by_contra ha
  have hcmd : s.cmd = c := Option.some.inj ((h.curIsCmd (h.busy_of_ans ha)).symm.trans hc)
  obtain ⟨⟨i, hi, ht, -⟩, -, -⟩ := h.answerDraws ha
  simp [hno i (hcmd ▸ hi)] at ht

/-- The candidates the edge policy leaves to the rounds (R201, R231). -/
theorem edge_eq_none_iff {n : Nat} (hn : n ≠ 0) : edge n = none ↔ n % 2 = 1 ∧ 5 ≤ n := by
  rw [Option.eq_none_iff_forall_ne_some]
  simp only [ne_eq, edge_eq_some_iff hn, Bool.forall_bool, reduceCtorEq, true_and, false_and,
    or_false, false_or]
  omega

/-- A command's step keeps the invariant. -/
theorem execCase_inv {i : Instr} {c : Word} {s t : State} (h : s.Inv) (hr : s.rstN = true)
    (hp : s.phase = .run) (hc : s.cur = some c) (hi : decode c = .ok i) (he : ExecCase i s t) :
    t.Inv := by
  have hb : s.busy = true := (busy_iff s).2 (by simp [hp])
  have hcmd : decode s.cmd = .ok i := by
    rw [← hi, Option.some.inj ((h.curIsCmd hb).symm.trans hc)]
  have hwf : Memory.wf t := execCase_memory_wf h.memory_wf he
  cases he with
  | commits o p l a ha hat hf =>
    have hnone : a = none := by
      cases ht : i.isTest with
      | true => exact hat ht
      | false =>
        have hans : s.ans = none := h.ans_eq_none hc fun j hj => by
          obtain rfl : i = j := Except.ok.inj (hi.symm.trans hj)
          exact ht
        exact ha.elim (·.trans hans) id
    subst hnone
    exact h.commit hr hwf hf.jsymCode hf.error
  | requests hans ht hk hn hedge =>
    obtain ⟨hodd, hlarge⟩ := (edge_eq_none_iff hn).1 hedge
    obtain ⟨hround, -⟩ := h.freshStart hp hans
    have hreq := h.request hr hp (r := s.round) (l := s.acc)
      ⟨⟨i, hcmd, ht, by rw [requestWitness_round, hround]; omega⟩, hodd, hlarge⟩
    rwa [← hans] at hreq
  | requestsAgain l hans ht hk =>
    obtain ⟨-, hodd, hlarge⟩ := h.answerDraws hans
    exact h.request hr hp ⟨⟨i, hcmd, ht, hk⟩, hodd, hlarge⟩

/-- The end of an illegal word keeps the invariant (R251). -/
theorem runIllegal_inv {c : Word} {e : Illegal} {s : State} (h : s.Inv) (hr : s.rstN = true)
    (hc : s.cur = some c) (he : decode c = .error e) :
    (runIllegal s).Inv := by
  have hans : s.ans = none := h.ans_eq_none hc fun i hi => by simp [he] at hi
  have hcommit := h.commit hr (o := some .illegalCommand) (p := errorSet none) (l := s.acc)
    h.memory_wf (by decide) fun _ _ => ⟨none, rfl⟩
  rwa [← hans] at hcommit

/-- Settles O55: every effect of `step_effects` keeps the invariant. -/
theorem everyStepKeepsTheInvariant : Obligations.EveryStepKeepsTheInvariant := by
  intro s t hs hstep
  have h : s.moving.Inv := hs.hostSide s.script s.resp s.turns.tail
  cases step_effects hstep with
  | command i c hd hr hp hc hi he => exact execCase_inv h hr hp hc hi he
  | illegal c e hd hr hp hc he ht => subst ht; exact runIllegal_inv h hr hc he
  | write r v rest u hd hr hs ht hi hu e =>
    have hu : u.Inv := writeCase_inv (h.hostSide rest s.resp s.turns.tail) hr hu
    subst e
    exact hu.hostSide u.script (some .ok) u.turns
  | answer a hd hr hp e => subst e; exact h.answer hr hp a
  | rstLow _ e | powerLoss _ e => subst e; exact resetBlock_inv h.cfgOk
  | rstHigh _ e =>
    subst e
    exact h.of_sameEngine (sameEngine_refl s.moving) h.memory_wf id (fun _ => rfl) nofun
  | nothing e | read _ _ _ _ _ _ _ e | wait _ _ _ _ _ _ e | busError _ _ _ _ _ _ _ e =>
    subst e
    exact h.hostSide _ _ _

end Sys2Proof.Machine
end

section
/-! ## Operand stores, the reset pins and the `STATUS` fields (20_memory.md, 10_state.md) -/

namespace Sys2Proof.Machine

open Sys2Proof

/-! ### An operand store to an idle engine (R62, R71) -/

/-- The state with the contents of an operand register replaced; `R` is no operand (R39). -/
def State.setWide (s : State) (x : WideReg) (w : Wide) : State :=
  match x with
  | .a => { s with regA := w }
  | .e => { s with regE := w }
  | .n => { s with regN := w }
  | .r => s

/-- A write to a word of an operand register of an idle engine (R71). -/
theorem writeReg_wide_of_idle {s : State} {x : WideReg} (i : Nat) (v : Word)
    (hb : s.busy = false) (hx : x ≠ .r) :
    writeReg (.wide x i) v s = s.setWide x ((s.wide x).set i v) := by
  cases x with
  | a | e | n => exact unlessBusy_idle _ hb
  | r => exact absurd rfl hx

@[simp] theorem setWide_cfg (s : State) (x : WideReg) (w : Wide) : (s.setWide x w).cfg = s.cfg := by
  cases x <;> rfl

theorem wide_setWide_same (s : State) {x : WideReg} (w : Wide) (hx : x ≠ .r) :
    (s.setWide x w).wide x = w := by
  cases x with
  | a | e | n => rfl
  | r => exact absurd rfl hx

theorem wide_setWide_other (s : State) {x y : WideReg} (w : Wide) (hxy : y ≠ x) :
    (s.setWide x w).wide y = s.wide y := by
  cases x with
  | a => cases y with
    | a => exact absurd rfl hxy
    | e | n | r => rfl
  | e => cases y with
    | e => exact absurd rfl hxy
    | a | n | r => rfl
  | n => cases y with
    | n => exact absurd rfl hxy
    | a | e | r => rfl
  | r => rfl

/-- The stored word is what its register then holds. -/
theorem readReg_setWide_same {s : State} {x : WideReg} {i : Nat} (v : Word) (hx : x ≠ .r)
    (hi : i < (s.wide x).length) :
    readReg (s.setWide x ((s.wide x).set i v)) (.wide x i) = v := by
  rw [readReg, wide_setWide_same s _ hx, List.getD_eq_getElem _ _ (by rwa [List.length_set]),
    List.getElem_set_self]

/-- A store leaves every other word of the register space (R71). -/
theorem readReg_setWide_other {s : State} {x : WideReg} {i : Nat} (v : Word) {r : Reg}
    (hx : x ≠ .r) (hr : r ≠ .wide x i) :
    readReg (s.setWide x ((s.wide x).set i v)) r = readReg s r := by
  cases r with
  | id | param | ctrl | status | cmd | bfWsize | bfSeed | bfState | rounds => cases x <;> rfl
  | wide y j =>
    by_cases hxy : y = x
    · subst hxy
      have hij : i ≠ j := fun h => hr (h ▸ rfl)
      rw [readReg, wide_setWide_same s _ hx, readReg, List.getD_eq_getElem?_getD,
        List.getElem?_set_ne hij, ← List.getD_eq_getElem?_getD]
    · rw [readReg, wide_setWide_other s _ hxy, readReg]

/-- An operand write over the bus to an idle engine (R71). -/
theorem busWrite_wide_of_idle {s : State} {x : WideReg} {i : Nat} (v : Word)
    (hc : s.cfg.nwords ≤ 1024) (hb : s.busy = false) (hx : x ≠ .r) (hi : i < s.cfg.nwords) :
    busWrite (BitVec.ofNat 16 (x.base + 4 * i)) 4 v s =
      { s.setWide x ((s.wide x).set i v) with resp := some .ok } := by
  rw [busWrite_of_target v (busTarget_wide x hc hi), writeReg_wide_of_idle i v hb hx]

/-- The byte of a mapped word at an offset is the lane of its register's word (R62). -/
theorem spaceByte_of_regAt {s : State} {o : BitVec 16} {r : Reg}
    (h : regAt s.cfg (wordOffset o) = some r) :
    spaceByte s o = some ((readReg s r).extractLsb' (8 * (o.toNat % 4)) 8) := by
  rw [spaceByte, h]

/-- An aligned offset is the word offset of its four bytes (R62). -/
theorem wordOffset_add {off : BitVec 16} {k : Nat} (h : off.toNat % 4 = 0) (hk : k < 4) :
    (off + BitVec.ofNat 16 k).toNat % 4 = k ∧ wordOffset (off + BitVec.ofNat 16 k) = off := by
  have hlt := off.isLt
  have hsum : (off + BitVec.ofNat 16 k).toNat = off.toNat + k := by
    rw [BitVec.toNat_add, BitVec.toNat_ofNat]
    omega
  refine ⟨by omega, BitVec.eq_of_toNat_eq ?_⟩
  rw [toNat_wordOffset, hsum]
  omega

/-- The four bytes of a stored word are the lanes of the value (R62, R71). -/
theorem spaceByte_busWrite_same {s : State} {x : WideReg} {i k : Nat} (v : Word)
    (hc : s.cfg.nwords ≤ 1024) (hb : s.busy = false) (hx : x ≠ .r) (hi : i < s.cfg.nwords)
    (hwf : Wide.wf s.cfg.nwords (s.wide x)) (hk : k < 4) :
    spaceByte (busWrite (BitVec.ofNat 16 (x.base + 4 * i)) 4 v s)
        (BitVec.ofNat 16 (x.base + 4 * i) + BitVec.ofNat 16 k) =
      some (v.extractLsb' (8 * k) 8) := by
  have hreg : regAt s.cfg (BitVec.ofNat 16 (x.base + 4 * i)) = some (.wide x i) :=
    regAt_offset_wide s.cfg x i hc hi
  obtain ⟨hlane, hword⟩ := wordOffset_add (toNat_of_regAt hc hreg).1 hk
  rw [busWrite_wide_of_idle v hc hb hx hi, spaceByte_of_regAt (r := .wide x i), hlane]
  · exact congrArg (fun w : Word => some (w.extractLsb' (8 * k) 8))
      ((readReg_hostSide _ _ _ _ _).trans (readReg_setWide_same v hx (hwf ▸ hi)))
  · rwa [hword, setWide_cfg]

/-- An operand store leaves the bytes of every other word (R62, R71). -/
theorem spaceByte_busWrite_other {s : State} {x : WideReg} {i : Nat} (v : Word) {o : BitVec 16}
    (hc : s.cfg.nwords ≤ 1024) (hb : s.busy = false) (hx : x ≠ .r) (hi : i < s.cfg.nwords)
    (ho : o.toNat < (BitVec.ofNat 16 (x.base + 4 * i)).toNat ∨
      (BitVec.ofNat 16 (x.base + 4 * i)).toNat + 4 ≤ o.toNat) :
    spaceByte (busWrite (BitVec.ofNat 16 (x.base + 4 * i)) 4 v s) o = spaceByte s o := by
  rw [busWrite_wide_of_idle v hc hb hx hi]
  refine spaceByte_congr (setWide_cfg ..) fun r hr => ?_
  have hne : r ≠ .wide x i := by
    rintro rfl
    have hoff : wordOffset o = BitVec.ofNat 16 (x.base + 4 * i) := (offset_of_regAt hr).1
    have hnat := toNat_wordOffset o
    rw [hoff] at hnat
    omega
  exact (readReg_hostSide _ _ _ _ r).trans (readReg_setWide_other v hx hne)

/-- Settles O9: the store by `busWrite_wide_of_idle`, its bytes and the others by the words they
lie in. -/
theorem idleOperandWriteStoresOneWord : Obligations.IdleOperandWriteStoresOneWord := by
  refine ⟨?_, fun s v hb => ⟨?_, ?_⟩⟩
  · rintro s x i v _ ⟨_, hc, _⟩ hb hx hi hwf rfl
    have hw := busWrite_wide_of_idle v hc hb hx hi
    refine ⟨by rintro rfl; exact hw, by rintro rfl; exact hw, by rintro rfl; exact hw, ?_,
      fun k hk => spaceByte_busWrite_same v hc hb hx hi hwf hk,
      fun o ho => spaceByte_busWrite_other v hc hb hx hi ho⟩
    rw [busRead_busWrite v (busTarget_wide x hc hi), writeReg_wide_of_idle i v hb hx,
      readReg_setWide_same v hx (hwf ▸ hi)]
  · rw [busWrite_of_target (r := .bfWsize) v rfl, writeReg, unlessBusy_idle _ hb]
  · rw [busWrite_of_target (r := .bfSeed) v rfl, writeReg, unlessBusy_idle _ hb]

/-! ### The fields of `STATUS` (R25) -/

/-- The lowest bit of a word that ends in a one-bit field. -/
theorem getLsbD_append_ofBool {n : Nat} (x : BitVec n) (b : Bool) :
    (x ++ BitVec.ofBool b).getLsbD 0 = b := by
  rw [BitVec.getLsbD_append, if_pos (by decide), BitVec.getLsbD_ofBool]
  rfl

/-- The bits to the left of a field. -/
theorem getLsbD_append_of_le {m n i : Nat} (x : BitVec m) (y : BitVec n) (h : n ≤ i) :
    (x ++ y).getLsbD i = x.getLsbD (i - n) := by
  rw [BitVec.getLsbD_append, if_neg (by omega)]

/-- `DONE` is bit 1 of `STATUS` (R25). -/
theorem statusWord_done (s : State) : s.statusWord.getLsbD 1 = s.done := by
  rw [State.statusWord, getLsbD_append_of_le _ _ (by decide)]
  exact getLsbD_append_ofBool _ _

/-- Settles O13: each field is reached past the fields to its right. -/
theorem statusReadsItsFields : Obligations.StatusReadsItsFields := by
  refine fun s => ⟨s.statusWord, busRead_of_target (busTarget_status s.cfg),
    getLsbD_append_ofBool _ _, statusWord_done s, ?_, ?_, ?_, ?_, ?_, ?_, ?_⟩
  all_goals rw [State.statusWord]
  · iterate 2 rw [getLsbD_append_of_le _ _ (by decide)]
    exact getLsbD_append_ofBool _ _
  · iterate 3 rw [getLsbD_append_of_le _ _ (by decide)]
    exact getLsbD_append_ofBool _ _
  · iterate 4 rw [BitVec.extractLsb'_append_eq_of_le (by decide)]
    exact BitVec.extractLsb'_append_eq_right
  · iterate 5 rw [getLsbD_append_of_le _ _ (by decide)]
    exact getLsbD_append_ofBool _ _
  · iterate 6 rw [getLsbD_append_of_le _ _ (by decide)]
    exact getLsbD_append_ofBool _ _
  · iterate 7 rw [BitVec.extractLsb'_append_eq_of_le (by decide)]
    exact BitVec.extractLsb'_append_eq_right
  · iterate 7 rw [BitVec.extractLsb'_append_eq_of_le (by decide)]
    exact BitVec.extractLsb'_append_eq_left

/-! ### Reset and acceptance (R45, R122, R290, R291) -/

/-- Words that hold 0 read 0 at every index. -/
theorem getD_replicate_zero (n i : Nat) : (List.replicate n (0 : Word)).getD i 0 = 0 := by
  rw [List.getD_eq_getElem?_getD, List.getElem?_replicate]
  split
  · rfl
  · rfl

/-- A wide register of zeros has the value 0 (R38). -/
theorem wideVal_replicate_zero (n : Nat) : wideVal (List.replicate n 0) = 0 := by
  induction n with
  | zero => rfl
  | succ n ih => rw [List.replicate_succ, wideVal_cons, ih]; rfl

/-- `PARAM` as the rule computes it (R23). -/
theorem readReg_param (s : State) (hc : s.cfg.Ok) :
    readReg s .param = (BitVec.ofNat 32 s.cfg.wmax <<< 16) ||| BitVec.ofNat 32 s.cfg.nwords := by
  obtain ⟨-, hwords, -, -, hwmax⟩ := hc
  have hhigh : (BitVec.ofNat 16 s.cfg.wmax).setWidth 32 = BitVec.ofNat 32 s.cfg.wmax :=
    setWidth_ofNat_of_lt (by omega) (by decide)
  have hlow : (BitVec.ofNat 16 s.cfg.nwords).setWidth 32 = BitVec.ofNat 32 s.cfg.nwords :=
    setWidth_ofNat_of_lt (by omega) (by decide)
  rw [← hhigh, ← hlow, ← BitVec.setWidth_append_eq_shiftLeft_setWidth_or]
  exact (BitVec.setWidth_eq _).symm

/-- Settles O1: the reset state field by field, its wide registers all zeros. -/
theorem resetLeavesSpecValues : Obligations.ResetLeavesSpecValues := by
  refine ⟨rfl, rfl, rfl, ?_⟩
  rintro c s hc rfl
  have hval : wideVal (List.replicate c.nwords 0) = 0 := wideVal_replicate_zero _
  have hstatus : statusLayout 0 false false 0 false false false false = 0 := by decide
  refine ⟨rfl, rfl, readReg_param _ hc, ctrlWord_eq _, hstatus, rfl, zero_append_eq_setWidth 0,
    rfl, rfl, zero_append_eq_setWidth 0, fun x i => ?_, hval, hval, hval, hval,
    rfl, rfl, rfl, rfl, rfl, rfl, rfl⟩
  cases x with
  | a | e | n | r => exact getD_replicate_zero _ i

/-- The step of the agent at the head of the schedule (R12). -/
theorem step_of_turn {s : State} {u : Turn} {ts : List Turn} (h : s.turns = u :: ts) :
    step s = takeTurn u { s with turns := ts } := by
  rw [step, h]

/-- While `rst_n = 0` the engine and the witness source change nothing (R291). -/
theorem takeTurn_inReset {s : State} {u : Turn} (hr : s.rstN = false)
    (hu : u = .engine ∨ ∃ a, u = .witness a) : takeTurn u s = .next s := by
  have hoff : ¬ s.rstN = true := by simp [hr]
  obtain rfl | ⟨a, rfl⟩ := hu
  · exact if_neg hoff
  · exact congrArg _ (if_neg fun h => hoff h.1)

/-- A host turn with a statement left during reset stops the model (R291; log 5). -/
theorem hostTurn_inReset {s : State} (hr : s.rstN = false) (hs : s.script ≠ []) :
    hostTurn s = .fault .hostStepDuringReset := by
  obtain ⟨st, rest, hs⟩ := List.exists_cons_of_ne_nil hs
  rw [hostTurn, hs]
  exact if_neg (by simp [hr])

/-- Settles O3: each turn is its agent's action on the state without it. -/
theorem hardwareResetHoldsTheResetState : Obligations.HardwareResetHoldsTheResetState := by
  refine ⟨fun s ts ht => ?_, fun s ts ht => ?_, fun s ts ht => ?_, fun s ts u hr ht hu => ?_,
    fun s ts hr ht hs => ?_⟩
  · rw [step_of_turn ht]; rfl
  · rw [step_of_turn ht]; rfl
  · rw [step_of_turn ht]; rfl
  · rw [step_of_turn ht]
    exact takeTurn_inReset hr hu
  · rw [step_of_turn ht]
    exact hostTurn_inReset hr hs

/-- Settles O20: the write is `accept`, which raises `BUSY` and clears `DONE`. -/
theorem acceptanceWrites : Obligations.AcceptanceWrites := by
  intro s c hb
  rw [busWrite_cmd_of_idle c hb]
  exact ⟨rfl, rfl, rfl⟩

end Sys2Proof.Machine
end

section
/-! ## The pseudo-instructions of a host script: WRW, RDW and WAIT (30_encoding.md R103) -/

namespace Sys2Proof.Machine

open Sys2Proof

/-! ### WAIT -/

/-- Settles O59: `WAIT` reads `STATUS`, whose bit 1 is `DONE`. -/
theorem waitPollsUntilDone : Obligations.WaitPollsUntilDone := by
  intro s ts rest hr ht hs
  have hread : busRead { s with turns := ts } Reg.status.offset 4 = .data s.statusWord :=
    busRead_of_target (r := .status) rfl
  have hscript : State.statusWord { s with turns := ts } = s.statusWord := rfl
  rw [step_of_hostStmt hr ht hs, hostStmt, hread, hscript, statusWord_done]
  refine ⟨fun hd => by rw [hd]; rfl, fun hd => ?_⟩
  rw [hd, ← hs]
  rfl

/-! ### WRW: the writes to the words of a register, one after the other -/

/-- The contents of a register after the words `f j` are stored at the indices listed. -/
def storeWords (f : Nat → Word) (js : List Nat) (w : Wide) : Wide :=
  js.foldl (fun w j => w.set j (f j)) w

/-- Storing the first words of a register leaves the words after them. -/
theorem storeWords_range (f : Nat → Word) (n : Nat) (w : Wide) (hn : n ≤ w.length) :
    storeWords f (List.range n) w = (List.range n).map f ++ w.drop n := by
  induction n with
  | zero => rfl
  | succ n ih =>
    have hstored : storeWords f (List.range (n + 1)) w =
        (storeWords f (List.range n) w).set n (f n) := by
      rw [storeWords, List.range_succ, List.foldl_concat]
      rfl
    rw [hstored, ih (by omega), List.set_append_right _ _ (by simp), List.length_map,
      List.length_range, Nat.sub_self, List.drop_eq_getElem_cons hn, List.set_cons_zero,
      List.range_succ, List.map_append, List.append_assoc]
    rfl

/-- The words of the field that `v` is placed in (R38, R103). -/
theorem wideOfNat_eq_map (n v : Nat) :
    wideOfNat n v = (List.range n).map fun i => BitVec.ofNat 32 (v >>> (32 * i)) := by
  refine List.ext_getElem (by simp) fun i h _ => ?_
  have hi : i < n := by simpa using h
  rw [List.getElem_map, List.getElem_range, ← wideOfNat_getD n v i hi,
    List.getD_eq_getElem _ _ h]

@[simp] theorem setWide_rstN (s : State) (x : WideReg) (w : Wide) :
    (s.setWide x w).rstN = s.rstN := by
  cases x <;> rfl

@[simp] theorem setWide_busy (s : State) (x : WideReg) (w : Wide) :
    (s.setWide x w).busy = s.busy := by
  cases x <;> rfl

/-- The host's turn on a write to a word of an operand register of an idle engine (R71). -/
theorem step_of_wideWrite {s : State} {x : WideReg} {i : Nat} {v : Word} {rest : List HostStmt}
    {ts : List Turn} (hc : s.cfg.nwords ≤ 1024) (hr : s.rstN = true) (hb : s.busy = false)
    (hx : x ≠ .r) (hi : i < s.cfg.nwords) (hs : s.script = wrStmt (.wide x i) v :: rest)
    (ht : s.turns = .host :: ts) :
    step s = .next { s.setWide x ((s.wide x).set i v) with
      resp := some .ok, script := rest, turns := ts } := by
  have hwrite := busWrite_wide_of_idle (s := { s with script := rest, turns := ts }) v hc hb hx hi
  rw [step_of_hostStmt hr ht hs, wrStmt, hostStmt]
  refine congrArg _ (hwrite.trans ?_)
  cases x <;> rfl

/-- The writes of `WRW` from word `i` on. -/
theorem run_of_wideWrites (f : Nat → Word) (x : WideReg) (hx : x ≠ .r) (rest : List HostStmt)
    (ts : List Turn) (n i : Nat) (s : State) (hc : s.cfg.nwords ≤ 1024) (hr : s.rstN = true)
    (hb : s.busy = false) (hi : i + n < s.cfg.nwords)
    (hs : s.script = ((List.range' i (n + 1)).map fun j => wrStmt (.wide x j) (f j)) ++ rest)
    (ht : s.turns = List.replicate (n + 1) .host ++ ts) :
    Host.Core.run Sys2Proof.core (n + 1) s =
      .next { s.setWide x (storeWords f (List.range' i (n + 1)) (s.wide x)) with
        resp := some .ok, script := rest, turns := ts } := by
  induction n generalizing i s with
  | zero =>
    rw [run_of_step (step_of_wideWrite hc hr hb hx hi hs ht)]
    exact run_zero _
  | succ n ih =>
    have hstep := step_of_wideWrite hc hr hb hx (by omega) hs ht
    have hcfg := setWide_cfg s x ((s.wide x).set i (f i))
    refine (run_of_step hstep).trans ((ih (i + 1) _ ?_ ?_ ?_ ?_ ?_ ?_).trans ?_)
    · exact hcfg ▸ hc
    · exact (setWide_rstN ..).trans hr
    · exact (setWide_busy ..).trans hb
    · rw [hcfg]; omega
    · rfl
    · rfl
    · cases x <;> rfl

/-- Settles O58: the writes store the words of `v`, all the register has. -/
theorem wrwLoadsTheRegister : Obligations.WrwLoadsTheRegister := by
  rintro s x v rest ts ⟨hmin, hc, -⟩ hr hb hx hwf hv hs ht
  obtain ⟨n, hn⟩ : ∃ n, s.cfg.nwords = n + 1 := ⟨s.cfg.nwords - 1, by omega⟩
  have hstored : storeWords (fun i => BitVec.ofNat 32 (v >>> (32 * i))) (List.range s.cfg.nwords)
      (s.wide x) = wideOfNat s.cfg.nwords v := by
    rw [storeWords_range _ _ _ hwf.ge, wideOfNat_eq_map, List.drop_of_length_le hwf.le,
      List.append_nil]
  rw [wrwStmts, List.range_eq_range', hn] at hs
  rw [hn] at ht
  have hrun := run_of_wideWrites _ x hx rest ts n 0 s hc hr hb (by omega) hs ht
  rw [← hn, ← List.range_eq_range', hstored] at hrun
  have hval : wideVal (wideOfNat s.cfg.nwords v) = v := wideVal_wideOfNat_of_lt hv
  refine ⟨_, hrun, ?_, ?_, ?_, ?_⟩
  · exact (congrArg wideVal (wide_setWide_same s (wideOfNat s.cfg.nwords v) hx)).trans hval
  · rintro rfl; rfl
  · rintro rfl; rfl
  · rintro rfl; rfl

/-! ### RDW: the reads of the words of a register -/

/-- The contents of a register do not depend on the host's side of the state (R12). -/
theorem wide_hostSide (s : State) (sc : List HostStmt) (p : Option Response) (ts : List Turn)
    (x : WideReg) : State.wide { s with script := sc, resp := p, turns := ts } x = s.wide x := by
  cases x <;> rfl

/-- The reads of `RDW` from word `i` on answer the words and change the host's side only. -/
theorem run_of_wideReads (x : WideReg) (rest : List HostStmt) (ts : List Turn) (n i : Nat)
    (s : State) (hc : s.cfg.nwords ≤ 1024) (hr : s.rstN = true) (hi : i + n ≤ s.cfg.nwords)
    (hs : s.script = ((List.range' i n).map fun j => rdStmt (.wide x j)) ++ rest)
    (ht : s.turns = List.replicate n .host ++ ts) :
    transcript n s = (List.range' i n).map (fun j => .data ((s.wide x).getD j 0)) ∧
      ∃ p : Option Response, Host.Core.run Sys2Proof.core n s =
        .next { s with resp := p, script := rest, turns := ts } := by
  induction n generalizing i s with
  | zero =>
    refine ⟨rfl, s.resp, ?_⟩
    rw [run_zero, ← show s.script = rest from hs, ← show s.turns = ts from ht]
  | succ n ih =>
    have hlt : i < s.cfg.nwords := by omega
    have hstep := step_of_read hr ht hs
    have hword : busRead s (Reg.wide x i).offset 4 = .data ((s.wide x).getD i 0) :=
      busRead_of_target (busTarget_wide x hc hlt)
    have hnext : i + 1 + n ≤ s.cfg.nwords := by omega
    obtain ⟨hshown, p, hrun⟩ := ih (i + 1) { s with
      turns := List.replicate n .host ++ ts
      script := ((List.range' (i + 1) n).map fun j => rdStmt (.wide x j)) ++ rest
      resp := some (busRead s (Reg.wide x i).offset 4) } hc hr hnext rfl rfl
    rw [wide_hostSide] at hshown
    refine ⟨(transcript_of_host hstep (hostTransacts_of ht hs)).trans ?_, p,
      (run_of_step hstep).trans hrun⟩
    exact congrArg₂ (fun a l => [a] ++ l) hword hshown

/-- The words of a register in order. -/
theorem map_getD_range {n : Nat} {w : Wide} (hwf : Wide.wf n w) :
    (List.range n).map (fun i => w.getD i 0) = w := by
  refine List.ext_getElem (by simp [hwf]) fun i _ hi => ?_
  rw [List.getElem_map, List.getElem_range, List.getD_eq_getElem _ _ hi]

/-- Settles O60: the reads answer the words of the register, whose sum is its value. -/
theorem rdwShowsTheRegister : Obligations.RdwShowsTheRegister := by
  rintro s x rest ts ⟨-, hc, -⟩ hr hwf hs ht
  rw [rdwStmts, List.range_eq_range'] at hs
  obtain ⟨hshown, p, hrun⟩ :=
    run_of_wideReads x rest ts s.cfg.nwords 0 s hc hr (Nat.zero_add _).le hs ht
  have hwords : transcript s.cfg.nwords s = (s.wide x).map .data := by
    rw [hshown, ← List.range_eq_range']
    exact List.map_map.symm.trans (congrArg (List.map Response.data) (map_getD_range hwf))
  exact ⟨by rw [hwords, scriptValue_rdw], _, hrun, rfl⟩

end Sys2Proof.Machine
end

section
/-! ## What one step can do to the results, `DONE`, the interrupt and the witness wait -/

namespace Sys2Proof.Machine

open Sys2Proof

/-! ### Which command writes which result (10_state.md R29, R30, R36, R37, R39) -/

/-- A register that a commit changes is in its set (R124). -/
theorem ne_none_of_getD_ne {α : Type} {o : Option α} {d : α} (h : o.getD d ≠ d) : o ≠ none :=
  fun hnone => h (by rw [hnone]; rfl)

/-- What no command writes: the operands, `CTRL`, `OVR`, `CMD`, the parameters and the host's
side. -/
theorem execCase_frame {i : Instr} {s t : State} (h : ExecCase i s t) :
    t.cfg = s.cfg ∧ t.irqEn = s.irqEn ∧ t.ovr = s.ovr ∧ t.cmd = s.cmd ∧ t.cur = s.cur ∧
    t.bfWsize = s.bfWsize ∧ t.bfSeed = s.bfSeed ∧ t.regA = s.regA ∧ t.regE = s.regE ∧
    t.regN = s.regN ∧ t.rstN = s.rstN ∧ t.resp = s.resp ∧ t.script = s.script ∧
    t.turns = s.turns := by
  cases h with
  | commits | requests | requestsAgain =>
    exact ⟨rfl, rfl, rfl, rfl, rfl, rfl, rfl, rfl, rfl, rfl, rfl, rfl, rfl, rfl⟩

/-- An error commit leaves no verdict and no symbol (R253). -/
theorem CommitFacts.error_set {i : Instr} {s : State} {o : Option ErrCode} {p : CommitSet}
    (h : CommitFacts i s o p) (ho : o ≠ none) (u : State) :
    (commit o { u with pend := p }).err = true ∧ (commit o { u with pend := p }).prime = false ∧
      (commit o { u with pend := p }).jsym = 0 := by
  obtain ⟨code, rfl⟩ := Option.ne_none_iff_exists'.1 ho
  obtain ⟨rs, rfl⟩ := h.error code rfl
  exact ⟨rfl, rfl, rfl⟩

/-- Settles O26: a changed result is in the commit set, which `CommitFacts` bounds. -/
theorem commandsWriteOnlyTheirResults : Obligations.CommandsWriteOnlyTheirResults := by
  intro i s t h
  have hcase := exec_cases h
  have hframe := execCase_frame hcase
  cases hcase with
  | requests | requestsAgain =>
    exact ⟨absurd rfl, absurd rfl, absurd rfl, absurd rfl, absurd rfl, hframe⟩
  | commits o p l a _ _ hf =>
    refine ⟨fun hr => ?_, fun hx => ?_, fun hp => ?_, fun hj => ?_, fun hr => ?_, hframe⟩
    · obtain ⟨rfl, hi, -⟩ := hf.r (ne_none_of_getD_ne hr)
      exact ⟨rfl, hi⟩
    · obtain ⟨rfl, hi⟩ := hf.xs (ne_none_of_getD_ne hx)
      exact ⟨rfl, hi⟩
    · refine (hf.prime (ne_none_of_getD_ne hp)).imp_right fun ho => ?_
      obtain ⟨herr, hprime, -⟩ := hf.error_set ho { s with acc := l, ans := a }
      exact ⟨herr, hprime⟩
    · refine (hf.jsym (ne_none_of_getD_ne hj)).imp_right fun ho => ?_
      obtain ⟨herr, -, hjsym⟩ := hf.error_set ho { s with acc := l, ans := a }
      exact ⟨herr, hjsym⟩
    · exact hf.rounds (ne_none_of_getD_ne hr)

/-! ### `DONE` and the interrupt (R27, R270, R271) -/

/-- The host's next statement is a write of `v` at `off`. -/
abbrev State.HostWrites (s : State) (off : BitVec 16) (v : Word) : Prop :=
  s.turns.head? = some .host ∧ s.script.head? = some (.write off 4 v)

/-- What one step can do to `DONE` and `IRQ_EN`. -/
inductive InterruptStep (s t : State) : Prop where
  | kept (hd : t.done = s.done) (hi : t.irqEn = s.irqEn)
  | commits (hp : s.phase = .run) (hidle : t.phase = .idle)
      (hturn : s.turns = [] ∨ s.turns.head? = some .engine) (hd : t.done = true)
      (hi : t.irqEn = s.irqEn)
  | accepts (c : Word) (hw : s.HostWrites 0x010 c) (hb : s.busy = false)
      (hd : t.done = false) (hi : t.irqEn = s.irqEn)
  | status (v : Word) (hw : s.HostWrites 0x00C v) (hd : t.done = (s.done && !v.getLsbD 1))
      (hi : t.irqEn = s.irqEn)
  | ctrl (v : Word) (hw : s.HostWrites 0x008 v) (hd : t.done = s.done)
      (hi : t.irqEn = v.getLsbD 0)
  | resets (h : t = resetBlock t)

/-- What a host write can do to `DONE` and `IRQ_EN`. -/
theorem writeCase_interrupt {s u : State} {r : Reg} {v : Word} {rest : List HostStmt}
    (hd : s.turns.head? = some .host) (hs : s.script = .write r.offset 4 v :: rest)
    (h : WriteCase { s.moving with script := rest } r v u) :
    InterruptStep s { u with resp := some .ok } := by
  have hw : s.HostWrites r.offset v := ⟨hd, by rw [hs]; rfl⟩
  cases h with
  | accepted hidle hr => subst hr; exact .accepts v hw hidle rfl rfl
  | status hr => subst hr; exact .status v hw rfl rfl
  | irqEn hr => subst hr; exact .ctrl v hw rfl rfl
  | softReset => exact .resets rfl
  | readOnly | dropped | bfWsize | bfSeed | wideA | wideE | wideN => exact .kept rfl rfl

theorem step_interrupt {s t : State} (h : step s = .next t) : InterruptStep s t := by
  cases step_effects h with
  | command i c hd hr hp hc hi he =>
    cases he with
    | commits => exact .commits hp rfl hd rfl rfl
    | requests | requestsAgain => exact .kept rfl rfl
  | illegal c e hd hr hp hc he ht => subst ht; exact .commits hp rfl hd rfl rfl
  | write r v rest u hd hr hs ht hi hu e => subst e; exact writeCase_interrupt hd hs hu
  | rstLow _ e | powerLoss _ e => subst e; exact .resets rfl
  | nothing e | read _ _ _ _ _ _ _ e | wait _ _ _ _ _ _ e | busError _ _ _ _ _ _ _ e
  | answer _ _ _ _ e | rstHigh _ e => subst e; exact .kept rfl rfl

/-- A block that stands in its reset state has `DONE` clear (R45). -/
theorem done_of_eq_resetBlock {t : State} (h : t = resetBlock t) : t.done = false := by
  rw [h, resetBlock_done]

/-- `DONE` rises only as the engine's commit, which leaves `IRQ_EN` (R27, R124). -/
theorem commit_of_done_rises {s t : State} (h : step s = .next t) (h0 : s.done = false)
    (h1 : t.done = true) :
    s.phase = .run ∧ t.phase = .idle ∧ (s.turns = [] ∨ s.turns.head? = some .engine) ∧
      t.irqEn = s.irqEn := by
  cases step_interrupt h with
  | commits hp hidle hturn _ hi => exact ⟨hp, hidle, hturn, hi⟩
  | kept hd | ctrl _ _ hd | status _ _ hd => simp [hd, h0] at h1
  | accepts _ _ _ hd => simp [hd] at h1
  | resets e => exact absurd (done_of_eq_resetBlock e) (by simp [h1])

/-- `DONE` falls only by a `STATUS` write of bit 1, an acceptance, or a reset (R27). -/
theorem cleared_of_done_falls {s t : State} (h : step s = .next t) (h1 : s.done = true)
    (h0 : t.done = false) :
    (∃ v, s.HostWrites 0x00C v ∧ v.getLsbD 1 = true) ∨
      (s.busy = false ∧ ∃ c, s.HostWrites 0x010 c) ∨ t = resetBlock t := by
  cases step_interrupt h with
  | kept hd | ctrl _ _ hd => simp [hd, h1] at h0
  | commits _ _ _ hd => simp [hd] at h0
  | accepts c hw hb => exact .inr (.inl ⟨hb, c, hw⟩)
  | status v hw hd => exact .inl ⟨v, hw, by simpa [hd, h1] using h0⟩
  | resets e => exact .inr (.inr e)

/-- The engine leaves `RUN` for `IDLE` as `BUSY` falls: at the commit or by a reset (R26, R42). -/
theorem done_of_run_to_idle {s t : State} (h : step s = .next t) (hp : s.phase = .run)
    (hidle : t.phase = .idle) : t = resetBlock t ∨ t.done = true := by
  have hb : s.busy = true := (busy_iff s).2 (by simp [hp])
  obtain ⟨-, hdone, -⟩ | hreset := committed_of_busy_falls h hb ((not_busy_iff t).2 hidle)
  · exact .inr hdone
  · exact .inl hreset

/-- Settles O28, from what one step can do to `DONE` (`step_interrupt`) and to `BUSY`
(`step_lifecycle`). -/
theorem doneMarksTheCommit : Obligations.DoneMarksTheCommit := by
  refine fun s t h => ⟨fun h0 h1 => ?_, done_of_run_to_idle h, fun h1 h0 => ?_⟩
  · obtain ⟨hp, hidle, hturn, -⟩ := commit_of_done_rises h h0 h1
    exact ⟨hp, hidle, hturn⟩
  · rcases cleared_of_done_falls h h1 h0 with
      ⟨v, ⟨hd, hs⟩, hv⟩ | ⟨hb, c, hd, hs⟩ | hreset
    · exact .inl ⟨hd, .inl ⟨v, hs, hv⟩⟩
    · exact .inl ⟨hd, .inr ⟨hb, c, hs⟩⟩
    · exact .inr hreset

theorem irq_iff (s : State) : s.irq = true ↔ s.done = true ∧ s.irqEn = true :=
  Bool.and_eq_true_iff

theorem not_irq_iff (s : State) : s.irq = false ↔ s.done = false ∨ s.irqEn = false :=
  Bool.and_eq_false_iff

/-- `IRQ_EN` changes only by a `CTRL` write of the new value, or by a reset (R24, R129). -/
theorem ctrl_of_irqEn_changes {s t : State} (h : step s = .next t) (hne : t.irqEn ≠ s.irqEn) :
    (∃ v, s.HostWrites 0x008 v ∧ v.getLsbD 0 = t.irqEn) ∨ t = resetBlock t := by
  cases step_interrupt h with
  | kept _ hi | commits _ _ _ _ hi | accepts _ _ _ _ hi | status _ _ _ hi => exact absurd hi hne
  | ctrl v hw _ hi => exact .inl ⟨v, hw, hi.symm⟩
  | resets e => exact .inr e

/-- The interrupt rises with `DONE` at a commit, or with `IRQ_EN` while `DONE` is 1 (R271). -/
theorem cause_of_irq_rises {s t : State} (h : step s = .next t) (h0 : s.irq = false)
    (h1 : t.irq = true) :
    (s.phase = .run ∧ t.phase = .idle ∧ s.irqEn = true) ∨
      (s.done = true ∧ ∃ v, s.HostWrites 0x008 v ∧ v.getLsbD 0 = true) := by
  obtain ⟨hdone, hen⟩ := (irq_iff t).1 h1
  cases hd : s.done with
  | false =>
    obtain ⟨hp, hidle, -, hi⟩ := commit_of_done_rises h hd hdone
    exact .inl ⟨hp, hidle, hi ▸ hen⟩
  | true =>
    have hoff : s.irqEn = false := ((not_irq_iff s).1 h0).resolve_left (by simp [hd])
    obtain ⟨v, hw, hv⟩ | hreset := ctrl_of_irqEn_changes h (by simp [hen, hoff])
    · exact .inr ⟨rfl, v, hw, hv.trans hen⟩
    · exact absurd (done_of_eq_resetBlock hreset) (by simp [hdone])

/-- The interrupt falls with `DONE` or with `IRQ_EN` (R271). -/
theorem cause_of_irq_falls {s t : State} (h : step s = .next t) (h1 : s.irq = true)
    (h0 : t.irq = false) :
    (∃ v, s.HostWrites 0x00C v ∧ v.getLsbD 1 = true) ∨ (∃ c, s.HostWrites 0x010 c) ∨
      (∃ v, s.HostWrites 0x008 v ∧ v.getLsbD 0 = false) ∨ t = resetBlock t := by
  obtain ⟨hdone, hen⟩ := (irq_iff s).1 h1
  obtain hd | hoff := (not_irq_iff t).1 h0
  · rcases cleared_of_done_falls h hdone hd with hs | ⟨-, hc⟩ | hreset
    · exact .inl hs
    · exact .inr (.inl hc)
    · exact .inr (.inr (.inr hreset))
  · obtain ⟨v, hw, hv⟩ | hreset := ctrl_of_irqEn_changes h (by simp [hen, hoff])
    · exact .inr (.inr (.inl ⟨v, hw, hv.trans hoff⟩))
    · exact .inr (.inr (.inr hreset))

/-- Settles O29: `irq` is a conjunction, so it moves as `DONE` or `IRQ_EN` does. -/
theorem irqRisesAndFallsOnlyAsStated : Obligations.IrqRisesAndFallsOnlyAsStated := by
  refine ⟨irq_iff, fun s t h h0 h1 => ?_, fun s t h h1 h0 => ?_⟩
  · obtain hcommit | ⟨hd, v, ⟨hturn, hs⟩, hv⟩ := cause_of_irq_rises h h0 h1
    · exact .inl hcommit
    · exact .inr ⟨hd, hturn, v, hs, hv⟩
  · rcases cause_of_irq_falls h h1 h0 with
      ⟨v, ⟨hd, hs⟩, hv⟩ | ⟨c, hd, hs⟩ | ⟨v, ⟨hd, hs⟩, hv⟩ | hreset
    · exact .inl ⟨hd, .inl ⟨v, hs, hv⟩⟩
    · exact .inl ⟨hd, .inr (.inl ⟨c, hs⟩)⟩
    · exact .inl ⟨hd, .inr (.inr ⟨v, hs, hv⟩)⟩
    · exact .inr hreset

/-! ### The engine's turn (40_control.md R120, R126, R130) -/

/-- A running engine runs what its word decodes to (R130). -/
theorem engineTurn_of_decode {s : State} {c : Word} {i : Instr} (hr : s.rstN = true)
    (hp : s.phase = .run) (hc : s.cur = some c) (hd : decode c = .ok i) :
    engineTurn s = exec i s := by
  rw [engineTurn_of_run hr hp hc, runWord, hd]

/-- With no turn waiting the engine moves, on the state as it is (R12; log 2). -/
theorem step_of_no_turn {s : State} (h : s.turns = []) : step s = engineTurn s := by
  rw [step, h]

/-- Settles O22: the engine's turn on a decoded word, and the word that `withFetchWord` places. -/
theorem engineTurnRunsTheDecodedCommand : Obligations.EngineTurnRunsTheDecodedCommand := by
  refine ⟨fun s c i hr hp hc hd => ⟨fun ht => ?_, fun ts ht => ?_⟩, fun s nbits w i hd => ?_⟩
  · rw [step_of_no_turn ht, engineTurn_of_decode hr hp hc hd]
  · rw [step_of_turn ht]
    exact engineTurn_of_decode (s := { s with turns := ts }) hr hp hc hd
  · have hstep := step_of_turn (s := s.withFetchWord nbits w) (u := .engine) (ts := s.turns) rfl
    rw [hstep]
    exact engineTurn_of_decode
      (s := { accept (BitVec.ofNat 32 (w % 2 ^ nbits)) s with rstN := true }) rfl rfl rfl hd

/-- The engine does nothing in reset, outside `RUN`, or without a word (R126, R291, R300). -/
theorem engineTurn_of_nothing {s : State}
    (h : s.rstN = false ∨ s.phase ≠ .run ∨ s.cur = none) : engineTurn s = .next s := by
  rw [engineTurn]
  split
  next hr =>
    split
    next c hp hc => simp [hr, hp, hc] at h
    · rfl
    · rfl
    · rfl
  next => rfl

/-! ### No command and no error stops the machine (R257, R291) -/

theorem runWord_goesOn (c : Word) (s : State) : GoesOn (runWord c s) := by
  rw [runWord]
  cases decode c with
  | ok i => exact exec_goesOn i s
  | error e => exact ⟨_, rfl⟩

theorem engineTurn_goesOn (s : State) : GoesOn (engineTurn s) := by
  cases hr : s.rstN with
  | false => exact ⟨s, takeTurn_inReset hr (.inl rfl)⟩
  | true =>
    rw [engineTurn, if_pos hr]
    split
    · exact runWord_goesOn _ s
    · exact ⟨s, rfl⟩
    · exact ⟨s, rfl⟩
    · exact ⟨s, rfl⟩

theorem hostTurn_goesOn {s : State} (h : s.rstN = true ∨ s.script = []) : GoesOn (hostTurn s) := by
  rw [hostTurn]
  split
  next hs => exact ⟨s, rfl⟩
  next st rest hs => exact ⟨_, if_pos (h.resolve_right (by simp [hs]))⟩

theorem takeTurn_goesOn {u : Turn} {s : State}
    (h : u = .host → s.rstN = true ∨ s.script = []) : GoesOn (takeTurn u s) := by
  cases u with
  | host => exact hostTurn_goesOn (h rfl)
  | engine => exact engineTurn_goesOn s
  | witness | rstLow | rstHigh | powerLoss => exact ⟨_, rfl⟩

/-- Settles O56: every agent's turn answers a next state but the host's in reset. -/
theorem stepsStopOnlyOnHostMovesInReset : Obligations.StepsStopOnlyOnHostMovesInReset := by
  refine fun s => ⟨fun ⟨hr, hturn, hs⟩ => ?_, fun hno => ?_⟩
  · obtain ⟨ts, ht⟩ := List.head?_eq_some_iff.1 hturn
    rw [step_of_turn ht]
    exact hostTurn_inReset hr hs
  · cases ht : s.turns with
    | nil => rw [step_of_no_turn ht]; exact engineTurn_goesOn s
    | cons u ts =>
      rw [step_of_turn ht]
      refine takeTurn_goesOn fun hu => ?_
      by_contra hstops
      obtain ⟨hr, hs⟩ := not_or.1 hstops
      exact hno ⟨Bool.eq_false_of_not_eq_true hr, by rw [ht, hu]; rfl, hs⟩

/-! ### The witness port and the wait (60_exceptions.md R262, R264, 70_reset_and_hazards.md R300) -/

/-- An answer is taken while a request is up (R262). -/
theorem answerWitness_of_wait {s : State} (a : Nat) (hr : s.rstN = true)
    (hp : s.phase = .waitWitness) :
    answerWitness a s = { s with ans := some (portValue s.cfg a), phase := .run } :=
  if_pos ⟨hr, hp⟩

/-- Without a request an answer is ignored (R264). -/
theorem answerWitness_of_no_wait {s : State} (a : Nat) (hp : s.phase ≠ .waitWitness) :
    answerWitness a s = s :=
  if_neg fun h => hp h.2

/-- Settles O52: the witness source's turn is `answerWitness`, and `WREQ` is the wait. -/
theorem witnessAnswersNeedARequest : Obligations.WitnessAnswersNeedARequest := by
  refine fun s ts a ht => ⟨fun hw => ?_, fun hw hr => ?_⟩
  · have hp : s.phase ≠ .waitWitness := fun hp => by simp [(wreq_iff s).2 hp] at hw
    rw [step_of_turn ht]
    exact congrArg Host.Outcome.next
      (answerWitness_of_no_wait (s := { s with turns := ts }) a hp)
  · rw [step_of_turn ht]
    exact congrArg Host.Outcome.next
      (answerWitness_of_wait (s := { s with turns := ts }) a hr ((wreq_iff s).1 hw))

/-- Settles O53: of the effects of `step_effects`, those that leave the wait are the answer and the
resets. -/
theorem witnessWaitEndsOnlyByAnswerOrReset : Obligations.WitnessWaitEndsOnlyByAnswerOrReset := by
  refine ⟨fun s hp ht => ?_, fun s t h hwait hleft => ?_⟩
  · rw [step_of_no_turn ht]
    exact engineTurn_of_nothing (.inr (.inl (by simp [hp])))
  cases step_effects h with
  | answer a hd hr hp e => subst e; exact .inl ⟨a, hd, rfl, rfl⟩
  | rstLow hd e => subst e; exact .inr ⟨rfl, .inl hd⟩
  | powerLoss hd e => subst e; exact .inr ⟨rfl, .inr (.inl hd)⟩
  | write r v rest u hd hr hs ht hi hu e =>
    subst e
    cases hu with
    | softReset hctrl hv =>
      subst hctrl
      exact .inr ⟨rfl, .inr (.inr ⟨hd, v, by rw [hs]; rfl, hv⟩)⟩
    | accepted hidle =>
      have hp : s.phase = .idle := (not_busy_iff s).1 hidle
      rw [hwait] at hp
      cases hp
    | readOnly | dropped | status | irqEn | bfWsize | bfSeed | wideA | wideE | wideN =>
      exact absurd hwait hleft
  | command _ _ _ _ hp | illegal _ _ _ _ hp => simp [hwait] at hp
  | nothing e | read _ _ _ _ _ _ _ e | wait _ _ _ _ _ _ e | busError _ _ _ _ _ _ _ e
  | rstHigh _ e => subst e; exact absurd hwait hleft

/-! ### The engine does not see the host's side (00_scope.md R8, R14) -/

/-- What the host reads, its script, the schedule, and the two bits the engine never reads. -/
structure HostSide where
  resp : Option Response
  script : List HostStmt
  turns : List Turn
  irqEn : Bool
  ovr : Bool

/-- The state with another host side. -/
def State.withHost (s : State) (v : HostSide) : State :=
  { s with
    resp := v.resp, script := v.script, turns := v.turns, irqEn := v.irqEn, ovr := v.ovr }

section
variable (v : HostSide) (s : State)

theorem finish_withHost (res : Except ErrCode CommitSet) :
    finish res (s.withHost v) = (finish res s).withHost v := by
  cases res with
  | ok p => rfl
  | error code => rfl

theorem testStart_withHost (k : Nat) :
    testStart k (s.withHost v) = (testStart k s).withHost v := by
  have hval : (s.withHost v).valN = s.valN := rfl
  rw [testStart, testStart, hval, apply_ite (State.withHost · v), apply_ite (State.withHost · v)]
  cases edge s.valN with
  | none => rfl
  | some b => rfl

theorem mrAnswer_withHost (pol : Policy) (k a : Nat) :
    mrAnswer pol k a (s.withHost v) = (mrAnswer pol k a s).withHost v := by
  unfold mrAnswer
  simp only [apply_ite (State.withHost · v)]
  rfl

theorem ssAnswer_withHost (k a : Nat) :
    ssAnswer k a (s.withHost v) = (ssAnswer k a s).withHost v := by
  unfold ssAnswer
  simp only [apply_ite (State.withHost · v)]
  rfl

theorem mrTest_withHost (pol : Policy) (k : Nat) :
    mrTest pol k (s.withHost v) = (mrTest pol k s).withHost v := by
  have hans : (s.withHost v).ans = s.ans := rfl
  rw [mrTest, mrTest, hans]
  cases s.ans with
  | none => exact testStart_withHost v s k
  | some a => exact mrAnswer_withHost v { s with ans := none } pol k a

theorem ssTest_withHost (k : Nat) : ssTest k (s.withHost v) = (ssTest k s).withHost v := by
  have hans : (s.withHost v).ans = s.ans := rfl
  rw [ssTest, ssTest, hans]
  cases s.ans with
  | none => exact testStart_withHost v s k
  | some a => exact ssAnswer_withHost v { s with ans := none } k a

/-- A command's step commutes with a change of the host's side. -/
theorem exec_withHost {i : Instr} {t : State} (h : exec i s = .next t) :
    exec i (s.withHost v) = .next (t.withHost v) := by
  cases i with
  | nop => cases h; exact congrArg _ (finish_withHost v s nopRun)
  | bfInit => cases h; exact congrArg _ (finish_withHost v s (bfInitRun s))
  | bfNextT2 => cases h; exact congrArg _ (finish_withHost v s (bfNextRun .t2 s))
  | bfNextT3 => cases h; exact congrArg _ (finish_withHost v s (bfNextRun .t3 s))
  | powmod => cases h; exact congrArg _ (finish_withHost v s (powmodRun s))
  | jacobi => cases h; exact congrArg _ (finish_withHost v s (jacobiRun s))
  | mrTestS k => cases h; exact congrArg _ (mrTest_withHost v s .s k)
  | mrTestCA k => cases h; exact congrArg _ (mrTest_withHost v s .ca k)
  | mrTestCO k => cases h; exact congrArg _ (mrTest_withHost v s .co k)
  | ssTest k => cases h; exact congrArg _ (ssTest_withHost v s k)

/-- The engine's turn commutes with a change of the host's side. -/
theorem engineTurn_withHost {t : State} (h : engineTurn s = .next t) :
    engineTurn (s.withHost v) = .next (t.withHost v) := by
  rcases engineTurn_cases h with ⟨rfl, hno⟩ | ⟨hr, hp, c, hc, ⟨i, hd, he⟩ | ⟨e, hd, rfl⟩⟩
  · exact engineTurn_of_nothing (s := t.withHost v) hno
  · exact (engineTurn_of_decode (s := s.withHost v) hr hp hc hd).trans (exec_withHost v s he)
  · have hrun : engineTurn (s.withHost v) = runWord c (s.withHost v) :=
      engineTurn_of_run (s := s.withHost v) hr hp hc
    rw [hrun, runWord, hd]
    rfl

end

/-- Settles O57: the engine's turn commutes with `withHost`. -/
theorem engineIgnoresTheHostSide : Obligations.EngineIgnoresTheHostSide :=
  fun s _ resp script turns irqEn ovr h => engineTurn_withHost ⟨resp, script, turns, irqEn, ovr⟩ s h

end Sys2Proof.Machine
end

section
/-! ## The xorshift step and the corner cases of BF_NEXT and POWMOD (41_bitfolder.md,
42_powmod.md) -/

namespace Sys2Proof.Machine

open Sys2Proof

/-! ### One xorshift step on naturals (R142) -/

/-- A left shift under an exclusive-or, cut to the word (R142). -/
theorem toNat_xor_shiftLeft (x : Word) (k : Nat) :
    (x ^^^ (x <<< k)).toNat = (x.toNat ^^^ (x.toNat * 2 ^ k)) % 2 ^ 32 := by
  rw [BitVec.toNat_xor, BitVec.toNat_shiftLeft, Nat.shiftLeft_eq, Nat.xor_mod_two_pow,
    Nat.mod_eq_of_lt x.isLt]

/-- A right shift under an exclusive-or (R142). -/
theorem toNat_xor_ushiftRight (x : Word) (k : Nat) :
    (x ^^^ (x >>> k)).toNat = x.toNat ^^^ (x.toNat / 2 ^ k) := by
  rw [BitVec.toNat_xor, BitVec.toNat_ushiftRight, Nat.shiftRight_eq_div_pow]

/-- Settles O33: the three shifts of `xsStep`, one after the other. -/
theorem xorshiftStepOnNaturals : Obligations.XorshiftStepOnNaturals := by
  rintro x _ _ _ rfl rfl rfl
  have h2 : (xsStep x).1.toNat = _ := toNat_xor_ushiftRight (x ^^^ (x <<< 13)) 17
  rw [toNat_xor_shiftLeft] at h2
  have h3 : (xsStep x).2.toNat = _ := toNat_xor_shiftLeft (xsStep x).1 5
  rw [h2] at h3
  exact ⟨h2, h3⟩

/-! ### A legal BF_NEXT (R145) -/

/-- `BF_NEXT` on a legal width commits the fold and the stepped register. -/
theorem exec_bfNext_of_legal_width {sp : SamplePoint} {i : Instr} {s : State}
    (hi : (sp = .t2 ∧ i = .bfNextT2) ∨ (sp = .t3 ∧ i = .bfNextT3)) (h0 : s.bfWsize.toNat ≠ 0)
    (hmax : s.bfWsize.toNat ≤ s.cfg.wmax) :
    ∃ t, exec i s = .next t ∧ t.err = false ∧
      t.regR = wideOfNat s.cfg.nwords (bfOutput sp s.bfWsize.toNat s.xs).1 ∧
      t.xs = xsAfter (foldBlocks s.bfWsize.toNat) s.xs := by
  refine ⟨_, exec_bfNext s hi, ?_⟩
  rw [bfNextRun_of_legal_width sp h0 hmax]
  exact ⟨rfl, rfl, bfOutput_xs _ _ _⟩

/-! ### Widths that are multiples of 32 (R147 (a)) -/

theorem foldBlocks_mul_32 (q : Nat) : foldBlocks (32 * q) = q := by
  rw [foldBlocks, Nat.gcd_mul_right_left, Nat.mul_div_cancel_left q (by decide)]

theorem foldChunks_mul_32 (q : Nat) : foldChunks (32 * q) = 1 := by
  rw [foldChunks, Nat.gcd_mul_right_left, Nat.div_self (by decide)]

/-- For a width `32 * q` the fold is the stream itself. -/
theorem testBit_bfOutput_mul_32 (sp : SamplePoint) (x : Word) {q b : Nat} (hb : b < 32 * q) :
    (bfOutput sp (32 * q) x).1.testBit b = streamBit sp q x b := by
  rw [testBit_bfOutput sp x hb, foldBlocks_mul_32, foldChunks_mul_32]
  simp

/-- Word `j` of the fold is the sampled word of block `q - 1 - j`. -/
theorem word_bfOutput_mul_32 (sp : SamplePoint) (x : Word) {q j : Nat} (hj : j < q) :
    BitVec.ofNat 32 ((bfOutput sp (32 * q) x).1 >>> (32 * j)) =
      sampled sp (xsStep (xsAfter (q - 1 - j) x)) := by
  refine BitVec.eq_of_getLsbD_eq fun b hb => ?_
  have hblock : (32 * j + b) / 32 = j := by omega
  have hbit : (32 * j + b) % 32 = b := by omega
  rw [BitVec.getLsbD_ofNat, decide_eq_true hb, Bool.true_and, Nat.testBit_shiftRight,
    testBit_bfOutput_mul_32 sp x (by omega), streamBit, hblock, hbit]

/-- Word `j` of the register that holds `v`, at every index (R38). -/
theorem wideOfNat_getD_of_lt {n v j : Nat} (hv : v < 2 ^ (32 * n)) :
    (wideOfNat n v).getD j 0 = BitVec.ofNat 32 (v >>> (32 * j)) := by
  rw [wide_getD, wideVal_wideOfNat_of_lt hv]

/-- Settles O34: the words of the fold, which is the stream. -/
theorem bfNextMultipleOf32Concatenates : Obligations.BfNextMultipleOf32Concatenates := by
  intro s sp i q hi hw hq hmax hn
  obtain ⟨t, ht, -, hr, hx⟩ := exec_bfNext_of_legal_width (s := s) hi (by omega) (by omega)
  rw [hw] at hr hx
  have hv : (bfOutput sp (32 * q) s.xs).1 < 2 ^ (32 * s.cfg.nwords) :=
    bfOutput_lt_nbits sp s.xs (hmax.trans hn)
  refine ⟨t, ht, by rw [hr, wideOfNat_length], fun j hj => ?_, fun j hj => ?_, ?_⟩
  · rw [hr, wideOfNat_getD_of_lt hv, word_bfOutput_mul_32 sp s.xs hj]
  · have hlt : (bfOutput sp (32 * q) s.xs).1 < 2 ^ (32 * j) :=
      (bfOutput_lt _ _ _).trans_le (Nat.pow_le_pow_right (by decide) (by omega))
    rw [hr, wideOfNat_getD_of_lt hv, Nat.shiftRight_eq_div_pow, Nat.div_eq_of_lt hlt]
    rfl
  · rw [hx, foldBlocks_mul_32]

/-! ### Width 1, state 0 and the two sampling points (R147 (b), (d), (e)) -/

/-- The parity of the bits of a word does not depend on their order. -/
theorem foldl_xor_reverse (f : Nat → Bool) :
    (List.range 32).foldl (fun par j => par ^^ f (31 - j)) false =
      (List.range 32).foldl (fun par b => par ^^ f b) false := by
  have hperm : ((List.range 32).map (31 - ·)).Perm (List.range 32) := by decide
  have hcomm : RightCommutative fun (par : Bool) b => par ^^ f b :=
    ⟨fun par b c => Bool.xor_right_comm par (f b) (f c)⟩
  have hfold := hperm.foldl_eq (f := fun par b => par ^^ f b) false
  rwa [List.foldl_map] at hfold

/-- For width 1 the fold is the parity of the one sampled word (R147 (b)). -/
theorem bfOutput_one (sp : SamplePoint) (x : Word) :
    (bfOutput sp 1 x).1 =
      ((List.range 32).foldl (fun par b => par ^^ (sampled sp (xsStep x)).getLsbD b)
        false).toNat := by
  have hlt : (bfOutput sp 1 x).1 < 2 := bfOutput_lt sp 1 x
  have hbit : (bfOutput sp 1 x).1.testBit 0 =
      (List.range 32).foldl (fun par b => par ^^ (sampled sp (xsStep x)).getLsbD b) false := by
    rw [testBit_bfOutput sp x Nat.zero_lt_one, ← foldl_xor_reverse]
    refine List.foldl_ext _ _ _ fun par j hj => ?_
    have hj : j < 32 := List.mem_range.1 hj
    have hpos : 1 * (foldChunks 1 - 1 - j) + 0 = 31 - j := by rw [Nat.one_mul]; rfl
    rw [hpos]
    exact congrArg (par ^^ ·) (streamBit_first sp (b := 0) x (Nat.zero_le _) (by omega))
  rw [← hbit, Nat.toNat_testBit]
  omega

/-- The register stays at 0 (R147 (d)). -/
theorem xsAfter_zero (b : Nat) : xsAfter b 0 = 0 :=
  Function.iterate_fixed (by decide) b

/-- A stream of zeros (R147 (d)). -/
theorem foldStream_zero (sp : SamplePoint) (b : Nat) : foldStream sp b 0 0 = (0, 0) := by
  induction b with
  | zero => rfl
  | succ b ih =>
    have hnext : foldStream sp (b + 1) 0 0 = foldStream sp b 0 0 := by
      cases sp with
      | t2 => rfl
      | t3 => rfl
    rw [hnext, ih]

theorem xorReduce_zero (w chunks n : Nat) : xorReduce w chunks 0 n = 0 := by
  induction n with
  | zero => rfl
  | succ n ih => rw [xorReduce, ih, chunkAt_eq_mod, Nat.zero_shiftRight, Nat.zero_mod]; rfl

theorem bfOutput_zero (sp : SamplePoint) (w : Nat) : (bfOutput sp w 0).1 = 0 := by
  rw [bfOutput, foldStream_zero]
  exact xorReduce_zero _ _ _

/-- What `BF_NEXT` leaves in `XS` does not depend on the sampling point (R147 (e)). -/
theorem finish_bfNext_xs (sp : SamplePoint) (s : State) :
    (finish (bfNextRun sp s) s).xs =
      if s.bfWsize.toNat = 0 ∨ s.cfg.wmax < s.bfWsize.toNat then s.xs
      else xsAfter (foldBlocks s.bfWsize.toNat) s.xs := by
  split
  next h => rw [bfNextRun_of_illegal_width sp h]; rfl
  next h =>
    rw [bfNextRun_of_legal_width sp (by omega) (by omega)]
    exact bfOutput_xs _ _ _

/-- Settles O35: the parity by `bfOutput_one`, the zero state by `bfOutput_zero`, and `XS` is
stepped alike at both sampling points. -/
theorem bfNextCornerCases : Obligations.BfNextCornerCases := by
  refine ⟨fun s sp i hi hw hmax hn => ?_, fun s i hi hx h0 hmax => ?_, fun s t u ht hu => ?_⟩
  · obtain ⟨t, ht, -, hr, -⟩ := exec_bfNext_of_legal_width (s := s) hi (by omega) (by omega)
    have hlt : (bfOutput sp 1 s.xs).1 < 2 ^ (32 * s.cfg.nwords) :=
      (bfOutput_lt _ _ _).trans_le (Nat.pow_le_pow_right (by decide) (by omega))
    exact ⟨t, ht, by rw [hr, hw, wideVal_wideOfNat_of_lt hlt, bfOutput_one]⟩
  · obtain ⟨sp, hi⟩ : ∃ sp : SamplePoint,
        (sp = .t2 ∧ i = .bfNextT2) ∨ (sp = .t3 ∧ i = .bfNextT3) :=
      hi.elim (fun h => ⟨.t2, .inl ⟨rfl, h⟩⟩) fun h => ⟨.t3, .inr ⟨rfl, h⟩⟩
    obtain ⟨t, ht, herr, hr, hxs⟩ := exec_bfNext_of_legal_width hi h0 hmax
    refine ⟨t, ht, herr, ?_, ?_⟩
    · rw [hr, hx, bfOutput_zero, wideVal_wideOfNat_of_lt (Nat.two_pow_pos _)]
    · rw [hxs, hx, xsAfter_zero]
  · cases ht
    cases hu
    rw [finish_bfNext_xs, finish_bfNext_xs]

/-! ### The corner cases of the exponentiation (R171) -/

/-- The square of `N - 1` leaves 1 (R171). -/
theorem pred_sq_mod {n : Nat} (hn : 2 ≤ n) : (n - 1) ^ 2 % n = 1 := by
  obtain ⟨m, rfl⟩ : ∃ m, n = m + 2 := ⟨n - 2, by omega⟩
  have h : (m + 2 - 1) ^ 2 = 1 + (m + 2) * m := by
    rw [Nat.add_sub_assoc (by decide)]
    ring
  rw [h, Nat.add_mul_mod_self_left, Nat.mod_eq_of_lt (by omega)]

/-- Settles O38: the committed power (`powmodCommitsThePower`) in each corner. -/
theorem powmodCornerCases : Obligations.PowmodCornerCases := by
  intro s t hwf hN ht
  obtain ⟨r, he, -, hval⟩ := (powmodCommitsThePower s).2 hN hwf
  have htr : wideVal t.regR = s.valA ^ s.valE % s.valN := by
    rw [ht] at he
    cases he
    exact hval
  rw [htr]
  refine ⟨fun h1 => ?_, fun h0 hle => ?_, fun hdvd hE => ?_, fun h => ?_, fun hA hMax hE hle => ?_⟩
  · rw [h1, Nat.mod_one]
  · rw [h0, pow_zero, Nat.mod_eq_of_lt hle]
  · rw [Nat.pow_mod, hdvd, Nat.zero_pow hE, Nat.zero_mod]
  · obtain h1 | h1 := h
    · rw [Nat.pow_mod, h1, one_pow, ← h1, Nat.mod_mod]
    · rw [h1, pow_one]
  · have hA : s.valA = s.valN - 1 := by omega
    rw [hA, hE, pred_sq_mod hle]

end Sys2Proof.Machine
end

section
/-! ## The rounds of the witness tests (43_miller_rabin.md §2, 44_solovay_strassen.md §2,
60_exceptions.md R252, R254, R261) -/

namespace Sys2Proof.Machine

open Sys2Proof

/-! ### The start of a test (R200, R230, R252, R261) -/

theorem testStart_of_zero_count (s : State) :
    testStart 0 s = raise .invalidWitnessCount (some 0) s := rfl

theorem testStart_of_zero_candidate {k : Nat} {s : State} (hk : k ≠ 0) (hn : s.valN = 0) :
    testStart k s = raise .invalidCandidate (some 0) s := by
  rw [testStart, if_neg hk, if_pos hn]

theorem testStart_of_odd {k : Nat} {s : State} (hk : k ≠ 0) (hodd : s.valN % 2 = 1)
    (hn : 5 ≤ s.valN) : testStart k s = requestWitness s := by
  have hedge : edge s.valN = none := (edge_eq_none_iff (by omega)).2 ⟨hodd, hn⟩
  rw [testStart, if_neg hk, if_neg (by omega), hedge]

/-- Settles O41: all four tests share `testStart`, which checks the count first. -/
theorem testsCheckCountThenCandidate : Obligations.TestsCheckCountThenCandidate := by
  refine fun i s ht ha => ⟨fun hk => ?_, fun hk hn => ?_⟩
  · rw [exec_eq_testStart ht ha, hk, testStart_of_zero_count]
    rfl
  · rw [exec_eq_testStart ht ha, testStart_of_zero_candidate hk hn]
    rfl

/-- Settles O43: past the checks and the edge policy, `testStart` raises the request. -/
theorem testsRequestTheFirstWitness : Obligations.TestsRequestTheFirstWitness := by
  intro i s ht ha hk hodd hn
  have he : exec i s = .next (requestWitness s) := by
    rw [exec_eq_testStart ht ha, testStart_of_odd hk hodd hn]
  refine ⟨he, fun t h => ?_⟩
  rw [he] at h
  cases h
  exact ⟨rfl, rfl, rfl⟩

/-! ### An answer out of range (R254, R262) -/

theorem mrTest_of_answer {pol : Policy} {k a : Nat} {s : State} (h : s.ans = some a) :
    mrTest pol k s = mrAnswer pol k a { s with ans := none } := by
  rw [mrTest, h]

theorem ssTest_of_answer {k a : Nat} {s : State} (h : s.ans = some a) :
    ssTest k s = ssAnswer k a { s with ans := none } := by
  rw [ssTest, h]

theorem mrTest_of_out {pol : Policy} {k a : Nat} {s : State} (ha : s.ans = some a)
    (hout : WitnessOut s.valN a) :
    mrTest pol k s =
      raise .witnessRange (some (BitVec.ofNat 16 s.round)) { s with ans := none } :=
  (mrTest_of_answer ha).trans (if_pos hout)

theorem ssTest_of_out {k a : Nat} {s : State} (ha : s.ans = some a) (hout : WitnessOut s.valN a) :
    ssTest k s =
      raise .witnessRange (some (BitVec.ofNat 16 s.round)) { s with ans := none } :=
  (ssTest_of_answer ha).trans (if_pos hout)

/-- An out-of-range answer ends every test in the same way (R254). -/
theorem exec_of_answer_out {i : Instr} {s : State} {a : Nat} (ht : i.isTest = true)
    (ha : s.ans = some a) (hout : WitnessOut s.valN a) :
    exec i s =
      .next (raise .witnessRange (some (BitVec.ofNat 16 s.round)) { s with ans := none }) := by
  cases i with
  | mrTestS k | mrTestCA k | mrTestCO k => exact congrArg _ (mrTest_of_out ha hout)
  | ssTest k => exact congrArg _ (ssTest_of_out ha hout)
  | nop | bfInit | bfNextT2 | bfNextT3 | powmod | jacobi => cases ht

/-- Settles O44: the error commit of code 6 in the current round. -/
theorem outOfRangeWitnessEndsTheTest : Obligations.OutOfRangeWitnessEndsTheTest :=
  fun _ _ _ ht ha hout => exec_of_answer_out ht ha hout

/-! ### A round of MR_TEST (R204–R206) -/

/-- An answer that `Draw` takes (R262). -/
theorem not_witnessOut {n a : Nat} (h2 : 2 ≤ a) (hn : a ≤ n - 2) : ¬ WitnessOut n a := by
  simp only [WitnessOut]
  omega

section
variable {pol : Policy} {k a : Nat} {s : State} (ha : s.ans = some a)
  (hin : ¬ WitnessOut s.valN a)
include ha hin

/-- Policy `S` ends at the first witness-fail (R204). -/
theorem mrTest_of_fail (hfail : mrRound s.valN a = false) :
    mrTest .s k s =
      succeed { prime := some false, rounds := some (BitVec.ofNat 16 (s.round + 1)) }
        { s with ans := none } :=
  (mrTest_of_answer ha).trans ((if_neg hin).trans (if_pos ⟨rfl, hfail⟩))

/-- A round that does not end the test and leaves rounds to run records its outcome and asks for
the next witness (R204–R206). -/
theorem mrTest_of_more (hgo : pol = .s → mrRound s.valN a = true) (hk : s.round + 1 < k) :
    mrTest pol k s =
      requestWitness { s with
        ans := none, round := s.round + 1, acc := s.acc ++ [mrRound s.valN a] } := by
  have hno : ¬ (pol = .s ∧ mrRound s.valN a = false) := fun ⟨hp, hf⟩ => by simp [hgo hp] at hf
  exact (mrTest_of_answer ha).trans ((if_neg hin).trans ((if_neg hno).trans (if_pos hk)))

/-- The last round commits the policy's verdict on all the outcomes (R204–R206). -/
theorem mrTest_of_last (hgo : pol = .s → mrRound s.valN a = true) (hk : k ≤ s.round + 1) :
    mrTest pol k s =
      succeed
        { prime := some (verdict pol (s.acc ++ [mrRound s.valN a]))
          rounds := some (BitVec.ofNat 16 k) }
        { s with ans := none, acc := s.acc ++ [mrRound s.valN a] } := by
  have hno : ¬ (pol = .s ∧ mrRound s.valN a = false) := fun ⟨hp, hf⟩ => by simp [hgo hp] at hf
  exact (mrTest_of_answer ha).trans
    ((if_neg hin).trans ((if_neg hno).trans (if_neg (Nat.not_lt.2 hk))))

/-! ### A round of SS_TEST (R230, R233) -/

theorem ssTest_of_fail (hfail : ssRound s.valN a = false) :
    ssTest k s =
      succeed { prime := some false, rounds := some (BitVec.ofNat 16 (s.round + 1)) }
        { s with ans := none } :=
  (ssTest_of_answer ha).trans ((if_neg hin).trans (if_pos hfail))

theorem ssTest_of_more (hpass : ssRound s.valN a = true) (hk : s.round + 1 < k) :
    ssTest k s = requestWitness { s with ans := none, round := s.round + 1 } :=
  (ssTest_of_answer ha).trans
    ((if_neg hin).trans ((if_neg (ne_false_of_eq_true hpass)).trans (if_pos hk)))

theorem ssTest_of_last (hpass : ssRound s.valN a = true) (hk : k ≤ s.round + 1) :
    ssTest k s =
      succeed { prime := some true, rounds := some (BitVec.ofNat 16 k) } { s with ans := none } :=
  (ssTest_of_answer ha).trans
    ((if_neg hin).trans ((if_neg (ne_false_of_eq_true hpass)).trans (if_neg (Nat.not_lt.2 hk))))

end

/-! ### The verdicts -/

theorem verdict_ca_iff (l : List Bool) : verdict .ca l = true ↔ ∀ q ∈ l, q = true :=
  List.all_eq_true

theorem verdict_co_iff (l : List Bool) : verdict .co l = true ↔ ∃ q ∈ l, q = true :=
  List.any_eq_true

/-- Settles O45: the three cases of an in-range answer under policy `S`. -/
theorem mrTestSRejectsAtFirstFail : Obligations.MrTestSRejectsAtFirstFail := by
  intro s k a ha h2 hn
  have hin := not_witnessOut h2 hn
  refine ⟨fun hfail => congrArg _ (mrTest_of_fail ha hin hfail), fun hpass hk => ?_,
    fun hpass hk => ?_⟩
  · have hmore := mrTest_of_more (pol := .s) ha hin (fun _ => hpass) hk
    rw [hpass] at hmore
    exact congrArg _ hmore
  · have hlast := mrTest_of_last (pol := .s) ha hin (fun _ => hpass) hk
    rw [hpass] at hlast
    exact congrArg _ hlast

/-- Settles O46: under `CA` no outcome ends the test, and the verdict is `verdict_ca_iff`. -/
theorem mrTestCACollectsAll : Obligations.MrTestCACollectsAll := by
  rintro s k a _ ha h2 hn rfl
  have hin := not_witnessOut h2 hn
  refine ⟨fun hk => congrArg _ (mrTest_of_more (pol := .ca) ha hin nofun hk), fun hk v hv => ?_⟩
  obtain rfl : v = verdict .ca (s.acc ++ [mrRound s.valN a]) :=
    Bool.eq_iff_iff.2 (hv.trans (verdict_ca_iff _).symm)
  exact congrArg _ (mrTest_of_last (pol := .ca) ha hin nofun hk)

/-- Settles O47: under `CO` no outcome ends the test, and the verdict is `verdict_co_iff`. -/
theorem mrTestCOCollectsAny : Obligations.MrTestCOCollectsAny := by
  rintro s k a _ ha h2 hn rfl
  have hin := not_witnessOut h2 hn
  refine ⟨fun hk => congrArg _ (mrTest_of_more (pol := .co) ha hin nofun hk), fun hk v hv => ?_⟩
  obtain rfl : v = verdict .co (s.acc ++ [mrRound s.valN a]) :=
    Bool.eq_iff_iff.2 (hv.trans (verdict_co_iff _).symm)
  exact congrArg _ (mrTest_of_last (pol := .co) ha hin nofun hk)

/-- Settles O48: the three cases of an in-range answer to SS_TEST. -/
theorem ssTestRejectsAtFirstFail : Obligations.SsTestRejectsAtFirstFail := by
  intro s k a ha h2 hn
  have hin := not_witnessOut h2 hn
  exact ⟨fun hfail => congrArg _ (ssTest_of_fail ha hin hfail),
    fun hpass hk => congrArg _ (ssTest_of_more ha hin hpass hk),
    fun hpass hk => congrArg _ (ssTest_of_last ha hin hpass hk)⟩

end Sys2Proof.Machine
end

section
/-! ## The rounds against their number theory, and the whole test as a function (43_miller_rabin.md,
44_solovay_strassen.md) -/

namespace Sys2Proof.Machine

open Sys2Proof

/-! ### The Miller–Rabin round (R202, R203) -/

/-- A power of two times an odd number determines both (R202). -/
theorem two_pow_mul_odd_inj {s t m l : Nat} (hm : m % 2 = 1) (hl : l % 2 = 1)
    (h : 2 ^ s * m = 2 ^ t * l) : s = t ∧ m = l := by
  have hml : m = l := by
    rw [← Nat.ordCompl_pow_mul_of_not_dvd s Nat.prime_two (m := m) (by omega), h,
      Nat.ordCompl_pow_mul_of_not_dvd t Nat.prime_two (by omega)]
  subst hml
  exact ⟨Nat.pow_right_injective (le_refl 2) (Nat.eq_of_mul_eq_mul_right (by omega) h), rfl⟩

/-- The decomposition of R202 is the only one. -/
theorem decompose_unique {n s m : Nat} (hn : 2 ≤ n) (h : n - 1 = 2 ^ s * m) (hm : m % 2 = 1) :
    decompose n = (s, m) := by
  obtain ⟨hs, hm⟩ := two_pow_mul_odd_inj (decompose_odd hn) hm (decompose_eq.symm.trans h)
  exact Prod.ext hs hm

/-- The squaring loop finds -1 among the squares of `x` (R203). -/
theorem mrSquarings_iff (n i x : Nat) :
    mrSquarings n i x = true ↔ ∃ j, j < i ∧ x ^ 2 ^ (j + 1) % n = n - 1 := by
  induction i generalizing x with
  | zero => simp [mrSquarings]
  | succ i ih =>
    have hsq (j : Nat) : (x ^ 2 % n) ^ 2 ^ (j + 1) % n = x ^ 2 ^ (j + 1 + 1) % n := by
      rw [← Nat.pow_mod, ← pow_mul, ← pow_succ' 2]
    rw [mrSquarings, powmod_eq, Nat.exists_lt_succ_left, zero_add, pow_one]
    split
    next h => simp [h]
    next h => simp only [h, false_or, ih, hsq]

/-- A round with the decomposition at hand (R203). -/
theorem mrRound_iff {n a s m : Nat} (hdec : decompose n = (s + 1, m)) :
    mrRound n a = true ↔ a ^ m % n = 1 ∨ ∃ j, j < s + 1 ∧ a ^ (2 ^ j * m) % n = n - 1 := by
  have hpow (j : Nat) : (a ^ m % n) ^ 2 ^ (j + 1) % n = a ^ (2 ^ (j + 1) * m) % n := by
    rw [← Nat.pow_mod, ← pow_mul, Nat.mul_comm]
  rw [mrRound, hdec, powmod_eq, Nat.exists_lt_succ_left, pow_zero, Nat.one_mul, ← or_assoc]
  split
  next h => simp [h]
  next h =>
    rw [mrSquarings_iff, Nat.add_sub_cancel]
    simp only [h, false_or, hpow]

/-- An even number is not odd, so its power of two is there (R202). -/
theorem one_le_of_pred_eq {n s m : Nat} (hodd : n % 2 = 1) (hn : 5 ≤ n)
    (h : n - 1 = 2 ^ s * m) (hm : m % 2 = 1) : 1 ≤ s := by
  rw [Nat.one_le_iff_ne_zero]
  rintro rfl
  omega

/-- Settles O39: the decomposition is unique, and `mrSquarings_iff` finds the squares. -/
theorem mrRoundIsTheWitnessCondition : Obligations.MrRoundIsTheWitnessCondition := by
  intro n a s m hodd hn _ _ h hm
  have hs := one_le_of_pred_eq hodd hn h hm
  have hdec := decompose_unique (by omega) h hm
  obtain ⟨s, rfl⟩ := Nat.exists_eq_add_of_le' hs
  exact ⟨hdec, hs, mrRound_iff hdec⟩

/-! ### The Solovay–Strassen round (R232) -/

theorem jacobi_eq_zero_iff (a : Nat) {n : Nat} (hn : n % 2 = 1) :
    jacobi a n = .zero ↔ jacobiSym a n = 0 := by
  rw [← jacobi_eq a hn]
  exact ⟨fun h => by rw [h]; rfl, fun h => JSymbol.toInt_injective h⟩

/-- The power against the residue of the symbol, as integers (R181, R232). -/
theorem powmod_eq_modN_iff (a e : Nat) {n : Nat} (hn : n % 2 = 1) :
    powmod a e n = (jacobi a n).modN n ↔ (a : Int) ^ e % n = jacobiSym a n % n := by
  rw [← Int.natCast_inj, JSymbol.modN_eq _ (by omega), jacobi_eq a hn, powmod_eq, Int.natCast_mod,
    Int.natCast_pow]

/-- Settles O40: the branches of `ssRound` by the two comparisons. -/
theorem ssRoundIsTheEulerCondition : Obligations.SsRoundIsTheEulerCondition := by
  intro n a hodd _ _ _
  rw [ssRound, ← powmod_eq_modN_iff a _ hodd, Ne, ← jacobi_eq_zero_iff a hodd]
  split
  next h => simp [h]
  next h => simp [h]

/-! ### Prime candidates (R208 (c), R234 (c)) -/

/-- In a domain, a root of unity of order a power of two is 1 or has -1 among its squares. -/
theorem eq_one_or_pow_eq_neg_one {R : Type} [CommRing R] [IsDomain R] (x : R) (s : Nat)
    (h : x ^ 2 ^ s = 1) : x = 1 ∨ ∃ j, j < s ∧ x ^ 2 ^ j = -1 := by
  induction s with
  | zero => exact .inl (by simpa using h)
  | succ s ih =>
    rw [pow_succ, pow_mul] at h
    obtain h1 | hneg := sq_eq_one_iff.1 h
    · exact (ih h1).imp_right fun ⟨j, hj, hx⟩ => ⟨j, by omega, hx⟩
    · exact .inr ⟨s, by omega, hneg⟩

/-- A witness in range is not 0 modulo the candidate. -/
theorem natCast_ne_zero_of_range {n a : Nat} (h2 : 2 ≤ a) (hn : a ≤ n - 2) :
    (a : ZMod n) ≠ 0 := by
  rw [Ne, ZMod.natCast_eq_zero_iff]
  exact Nat.not_dvd_of_pos_of_lt (by omega) (by omega)

/-- Every witness in range passes on a prime: Fermat, and the square roots of 1 (R208 (c)). -/
theorem mrRound_of_prime {n a : Nat} (hp : n.Prime) (hn : 5 ≤ n) (h2 : 2 ≤ a) (ha : a ≤ n - 2) :
    mrRound n a = true := by
  have : Fact n.Prime := ⟨hp⟩
  have hodd : n % 2 = 1 := hp.eq_two_or_odd.resolve_left (by omega)
  have hm : (decompose n).2 % 2 = 1 := decompose_odd (by omega)
  have hs := one_le_of_pred_eq hodd hn decompose_eq hm
  have hfermat : ((a : ZMod n) ^ (decompose n).2) ^ 2 ^ (decompose n).1 = 1 := by
    rw [← pow_mul, Nat.mul_comm, ← decompose_eq]
    exact ZMod.pow_card_sub_one_eq_one (natCast_ne_zero_of_range h2 ha)
  refine ((mrRoundIsTheWitnessCondition n a _ _ hodd hn h2 ha decompose_eq hm).2.2).2 ?_
  refine (eq_one_or_pow_eq_neg_one _ _ hfermat).imp (fun h1 => ?_) ?_
  · have h1 : ((a ^ (decompose n).2 : Nat) : ZMod n) = (1 : Nat) := by push_cast; exact h1
    rw [(ZMod.natCast_eq_natCast_iff' _ _ _).1 h1, Nat.mod_eq_of_lt (by omega)]
  · rintro ⟨j, hj, hneg⟩
    have hneg : ((a ^ (2 ^ j * (decompose n).2) : Nat) : ZMod n) = (n - 1 : Nat) := by
      rw [Nat.cast_pred (by omega), ZMod.natCast_self, zero_sub, ← hneg, ← pow_mul,
        Nat.mul_comm, Nat.cast_pow]
    refine ⟨j, hj, ?_⟩
    rw [(ZMod.natCast_eq_natCast_iff' _ _ _).1 hneg, Nat.mod_eq_of_lt (by omega)]

/-- Every witness in range passes on a prime: Euler's criterion (R234 (c)). -/
theorem ssRound_of_prime {n a : Nat} (hp : n.Prime) (hn : 5 ≤ n) (h2 : 2 ≤ a) (ha : a ≤ n - 2) :
    ssRound n a = true := by
  have : Fact n.Prime := ⟨hp⟩
  have hodd : n % 2 = 1 := hp.eq_two_or_odd.resolve_left (by omega)
  have hhalf : (n - 1) / 2 = n / 2 := by omega
  refine (ssRoundIsTheEulerCondition n a hodd hn h2 ha).2 ?_
  rw [← jacobiSym.legendreSym.to_jacobiSym, hhalf]
  constructor
  · rw [Ne, legendreSym.eq_zero_iff, Int.cast_natCast]
    exact natCast_ne_zero_of_range h2 ha
  · refine (ZMod.intCast_eq_intCast_iff' _ _ n).1 ?_
    rw [legendreSym.eq_pow, Int.cast_pow]

/-! ### The rounds of a test as a function (R204–R206, R230) -/

section
variable {pass : Nat → Bool} {pol : Policy} {n k a r : Nat} {acc : List Bool}

theorem testRounds_of_out (draws : List Nat) (hout : WitnessOut n a) :
    testRounds pass pol n k (a :: draws) r acc =
      some ⟨some .witnessRange, errorSet (some (BitVec.ofNat 16 r)), r + 1⟩ := if_pos hout

variable (draws : List Nat) (hin : ¬ WitnessOut n a)
include hin

theorem testRounds_of_fail (hpol : pol = .s) (hfail : pass a = false) :
    testRounds pass pol n k (a :: draws) r acc =
      some ⟨none, { prime := some false, rounds := some (BitVec.ofNat 16 (r + 1)) }, r + 1⟩ :=
  (if_neg hin).trans (if_pos ⟨hpol, hfail⟩)

theorem testRounds_of_more (hgo : pol = .s → pass a = true) (hk : r + 1 < k) :
    testRounds pass pol n k (a :: draws) r acc =
      testRounds pass pol n k draws (r + 1) (acc ++ [pass a]) := by
  have hno : ¬ (pol = .s ∧ pass a = false) := fun ⟨hp, hf⟩ => by simp [hgo hp] at hf
  exact (if_neg hin).trans ((if_neg hno).trans (if_pos hk))

theorem testRounds_of_last (hgo : pol = .s → pass a = true) (hk : k ≤ r + 1) :
    testRounds pass pol n k (a :: draws) r acc =
      some ⟨none,
        { prime := some (verdict pol (acc ++ [pass a])), rounds := some (BitVec.ofNat 16 k) },
        r + 1⟩ := by
  have hno : ¬ (pol = .s ∧ pass a = false) := fun ⟨hp, hf⟩ => by simp [hgo hp] at hf
  exact (if_neg hin).trans ((if_neg hno).trans (if_neg (Nat.not_lt.2 hk)))

end

/-- A test that no round ends early runs all its rounds and commits the policy's verdict. -/
theorem testRounds_of_no_fail (pass : Nat → Bool) (pol : Policy) {n k : Nat} (draws : List Nat)
    (r : Nat) (acc : List Bool) (hin : ∀ b ∈ draws, ¬ WitnessOut n b)
    (hgo : pol = .s → ∀ b ∈ draws, pass b = true) (hlen : r + draws.length = k) (hr : r < k) :
    testRounds pass pol n k draws r acc =
      some ⟨none,
        { prime := some (verdict pol (acc ++ draws.map pass)), rounds := some (BitVec.ofNat 16 k) },
        k⟩ := by
  induction draws generalizing r acc with
  | nil => exact absurd hlen (Nat.ne_of_lt hr)
  | cons a draws ih =>
    have hina := hin a List.mem_cons_self
    have hgoa (hp : pol = .s) : pass a = true := hgo hp a List.mem_cons_self
    rw [List.length_cons] at hlen
    by_cases hk : r + 1 < k
    · rw [testRounds_of_more draws hina hgoa hk,
        ih (r + 1) _ (fun b hb => hin b (List.mem_cons_of_mem a hb))
          (fun hp b hb => hgo hp b (List.mem_cons_of_mem a hb)) (by omega) hk,
        List.append_assoc]
      rfl
    · obtain rfl : draws = [] := List.eq_nil_of_length_eq_zero (by omega)
      obtain rfl : k = r + 1 := by omega
      exact testRounds_of_last [] hina hgoa le_rfl

/-- A failing round ends a test under policy `S` with the rejection (R204). -/
theorem testRounds_s_of_fail (pass : Nat → Bool) {n k : Nat} (draws : List Nat) (r : Nat)
    (acc : List Bool) (hin : ∀ b ∈ draws, ¬ WitnessOut n b) (hfail : ∃ b ∈ draws, pass b = false)
    (hlen : r + draws.length = k) :
    ∃ rs u, testRounds pass .s n k draws r acc =
        some ⟨none, { prime := some false, rounds := rs }, u⟩ ∧ u ≤ k := by
  induction draws generalizing r acc with
  | nil =>
    obtain ⟨b, hb, -⟩ := hfail
    cases hb
  | cons a draws ih =>
    have hina := hin a List.mem_cons_self
    rw [List.length_cons] at hlen
    cases ha : pass a with
    | false => exact ⟨_, _, testRounds_of_fail draws hina rfl ha, by omega⟩
    | true =>
      obtain ⟨b, hb, hpb⟩ := hfail
      have hb : b ∈ draws := (List.mem_cons.1 hb).resolve_left fun h => by simp [h, ha] at hpb
      have hpos := List.length_pos_of_mem hb
      rw [testRounds_of_more draws hina (fun _ => ha) (by omega)]
      exact ih (r + 1) _ (fun c hc => hin c (List.mem_cons_of_mem a hc)) ⟨b, hb, hpb⟩ (by omega)

/-- Past the checks and the edge policy a test is its rounds (R200, R230). -/
theorem testRun_of_odd (pass : Nat → Bool) (pol : Policy) {n k : Nat} (draws : List Nat)
    (hk : k ≠ 0) (hodd : n % 2 = 1) (hn : 5 ≤ n) :
    testRun pass pol n k draws = testRounds pass pol n k draws 0 [] := by
  have hedge : edge n = none := (edge_eq_none_iff (by omega)).2 ⟨hodd, hn⟩
  rw [testRun, if_neg hk, if_neg (by omega), hedge]

/-! ### The policies on the same witnesses (R208 (d)) -/

/-- The verdicts when every round passed. -/
theorem verdict_of_all_pass (pol : Policy) {pass : Nat → Bool} {draws : List Nat}
    (hne : draws ≠ []) (h : ∀ b ∈ draws, pass b = true) : verdict pol (draws.map pass) = true := by
  have hall : ∀ q ∈ draws.map pass, q = true := List.forall_mem_map.2 h
  cases pol with
  | s => rfl
  | ca => exact (verdict_ca_iff _).2 hall
  | co =>
    obtain ⟨q, hq⟩ := List.exists_mem_of_ne_nil _ (mt List.map_eq_nil_iff.1 hne)
    exact (verdict_co_iff _).2 ⟨q, hq, hall q hq⟩

/-- Settles O49: `CA` and `CO` run all rounds; `S` does so exactly when all pass, else it commits 0
as `CA` does. -/
theorem policiesCompareAsStated : Obligations.PoliciesCompareAsStated := by
  intro s k draws hk hlen hodd hn hrange
  have hin (b : Nat) (hb : b ∈ draws) : ¬ WitnessOut s.valN b :=
    not_witnessOut (hrange b hb).1 (hrange b hb).2
  have hne : draws ≠ [] := List.ne_nil_of_length_pos (by omega)
  have full (pol : Policy) (hgo : pol = .s → ∀ b ∈ draws, mrRound s.valN b = true) :=
    (testRun_of_odd (mrRound s.valN) pol draws (by omega : k ≠ 0) hodd hn).trans
      (testRounds_of_no_fail (mrRound s.valN) pol draws 0 [] hin hgo (by omega) (by omega))
  by_cases hall : ∀ b ∈ draws, mrRound s.valN b = true
  · refine ⟨_, _, _, full .s fun _ => hall, full .ca nofun, full .co nofun, rfl, rfl, rfl, ?_,
      fun _ => ?_, le_rfl, rfl, rfl⟩
    · exact congrArg some (verdict_of_all_pass .ca hne hall).symm
    · exact congrArg some (verdict_of_all_pass .co hne hall)
  · obtain ⟨b, hb, hfail⟩ : ∃ b ∈ draws, mrRound s.valN b = false := by simpa using hall
    obtain ⟨rs, u, hs, hu⟩ := testRounds_s_of_fail (mrRound s.valN) draws 0 [] hin
      ⟨b, hb, hfail⟩ (k := k) (by omega)
    have hca : verdict .ca (draws.map (mrRound s.valN)) = false := by
      rw [← Bool.not_eq_true, verdict_ca_iff]
      exact fun h => hall (List.forall_mem_map.1 h)
    refine ⟨_, _, _, (testRun_of_odd _ _ _ (by omega) hodd hn).trans hs, full .ca nofun,
      full .co nofun, rfl, rfl, rfl, congrArg some hca.symm, nofun, hu, rfl, rfl⟩

/-! ### All four tests on a prime candidate (R208 (c), R234 (c)) -/

/-- The round a test runs on a candidate (R203, R232). -/
def roundOf (i : Instr) (n : Nat) : Nat → Bool :=
  match i with
  | .ssTest _ => ssRound n
  | _ => mrRound n

/-- The policy of a test; SS_TEST rejects as `S` does (R204–R206, R233). -/
def policyOf (i : Instr) : Policy :=
  match i with
  | .mrTestCA _ => .ca
  | .mrTestCO _ => .co
  | _ => .s

/-- All four tests are one function of their round, policy and count (R200, R230). -/
theorem runInstr_of_test {i : Instr} (ht : i.isTest = true) (s : State) (draws : List Nat) :
    runInstr i s draws = testRun (roundOf i s.valN) (policyOf i) s.valN i.count draws := by
  cases i with
  | mrTestS | mrTestCA | mrTestCO | ssTest => rfl
  | nop | bfInit | bfNextT2 | bfNextT3 | powmod | jacobi => cases ht

theorem roundOf_of_prime (i : Instr) {n a : Nat} (hp : n.Prime) (hn : 5 ≤ n) (h2 : 2 ≤ a)
    (ha : a ≤ n - 2) : roundOf i n a = true := by
  cases i with
  | ssTest => exact ssRound_of_prime hp hn h2 ha
  | nop | bfInit | bfNextT2 | bfNextT3 | powmod | jacobi | mrTestS | mrTestCA | mrTestCO =>
    exact mrRound_of_prime hp hn h2 ha

/-- Settles O50: every round passes on a prime (`roundOf_of_prime`), so no round ends the test. -/
theorem primesAreProbablyPrime : Obligations.PrimesAreProbablyPrime := by
  intro i s draws ht hk hlen hp hn hrange
  have hodd : s.valN % 2 = 1 := hp.eq_two_or_odd.resolve_left (by omega)
  have hpass (b : Nat) (hb : b ∈ draws) : roundOf i s.valN b = true :=
    roundOf_of_prime i hp hn (hrange b hb).1 (hrange b hb).2
  have hverdict := verdict_of_all_pass (policyOf i) (List.ne_nil_of_length_pos (by omega)) hpass
  refine ⟨⟨none, { prime := some true, rounds := some (BitVec.ofNat 16 i.count) }, i.count⟩, ?_,
    rfl, rfl, rfl⟩
  rw [runInstr_of_test ht, testRun_of_odd _ _ _ (by omega) hodd hn,
    testRounds_of_no_fail _ _ _ _ _ (fun b hb => not_witnessOut (hrange b hb).1 (hrange b hb).2)
      (fun _ => hpass) (by omega) (by omega), List.nil_append, hverdict]

end Sys2Proof.Machine
end

section
/-! ## The steps refine the command function (00_scope.md R14) -/

namespace Sys2Proof.Machine

open Sys2Proof

/-! ### One answered round, in the steps and in the function -/

section
variable {i : Instr} {s : State} {a : Nat} (ht : i.isTest = true) (ha : s.ans = some a)
  (hin : ¬ WitnessOut s.valN a)
include ht ha hin

theorem exec_of_fail (hpol : policyOf i = .s) (hfail : roundOf i s.valN a = false) :
    exec i s = .next (succeed
      { prime := some false, rounds := some (BitVec.ofNat 16 (s.round + 1)) }
      { s with ans := none }) := by
  cases i with
  | mrTestS k => exact congrArg _ (mrTest_of_fail ha hin hfail)
  | ssTest k => exact congrArg _ (ssTest_of_fail ha hin hfail)
  | mrTestCA | mrTestCO => cases hpol
  | nop | bfInit | bfNextT2 | bfNextT3 | powmod | jacobi => cases ht

/-- A test that goes on keeps its outcomes where its policy reads them (R205, R206). -/
theorem exec_of_more (hgo : policyOf i = .s → roundOf i s.valN a = true)
    (hk : s.round + 1 < i.count) :
    ∃ l, (policyOf i ≠ .s → l = s.acc ++ [roundOf i s.valN a]) ∧
      exec i s = .next (requestWitness { s with ans := none, round := s.round + 1, acc := l }) := by
  cases i with
  | mrTestS k => exact ⟨_, fun _ => rfl, congrArg _ (mrTest_of_more (pol := .s) ha hin hgo hk)⟩
  | mrTestCA k => exact ⟨_, fun _ => rfl, congrArg _ (mrTest_of_more (pol := .ca) ha hin hgo hk)⟩
  | mrTestCO k => exact ⟨_, fun _ => rfl, congrArg _ (mrTest_of_more (pol := .co) ha hin hgo hk)⟩
  | ssTest k => exact ⟨s.acc, absurd rfl, congrArg _ (ssTest_of_more ha hin (hgo rfl) hk)⟩
  | nop | bfInit | bfNextT2 | bfNextT3 | powmod | jacobi => cases ht

theorem exec_of_last (hgo : policyOf i = .s → roundOf i s.valN a = true)
    (hk : i.count ≤ s.round + 1) :
    ∃ l, exec i s = .next (succeed
      { prime := some (verdict (policyOf i) (s.acc ++ [roundOf i s.valN a]))
        rounds := some (BitVec.ofNat 16 i.count) }
      { s with ans := none, acc := l }) := by
  cases i with
  | mrTestS k => exact ⟨_, congrArg _ (mrTest_of_last (pol := .s) ha hin hgo hk)⟩
  | mrTestCA k => exact ⟨_, congrArg _ (mrTest_of_last (pol := .ca) ha hin hgo hk)⟩
  | mrTestCO k => exact ⟨_, congrArg _ (mrTest_of_last (pol := .co) ha hin hgo hk)⟩
  | ssTest k => exact ⟨s.acc, congrArg _ (ssTest_of_last ha hin (hgo rfl) hk)⟩
  | nop | bfInit | bfNextT2 | bfNextT3 | powmod | jacobi => cases ht

end

/-- The rounds of the function that are still to run, from a state's round on. -/
abbrev roundsFrom (i : Instr) (s : State) (draws : List Nat) (acc : List Bool) :
    Option RunResult :=
  testRounds (roundOf i s.valN) (policyOf i) s.valN i.count draws s.round acc

/-- An answered test does what the function does on that answer: both end with the same outcome and
commit set, or both go on to the next round. -/
inductive AnswerCase (i : Instr) (s : State) (a : Nat) (acc : List Bool) : Prop where
  | ends (o : Option ErrCode) (p : CommitSet) (l : List Bool)
      (he : exec i s = .next (commit o { s with pend := p, acc := l, ans := none }))
      (hr : ∀ draws, roundsFrom i s (a :: draws) acc = some ⟨o, p, s.round + 1⟩)
  | goesOn (l acc' : List Bool) (hl : policyOf i ≠ .s → l = acc')
      (he : exec i s =
        .next (requestWitness { s with ans := none, round := s.round + 1, acc := l }))
      (hr : ∀ draws, roundsFrom i s (a :: draws) acc =
        roundsFrom i { s with round := s.round + 1 } draws acc')

theorem answer_case {i : Instr} {s : State} {a : Nat} {acc : List Bool} (ht : i.isTest = true)
    (ha : s.ans = some a) (hacc : policyOf i ≠ .s → s.acc = acc) : AnswerCase i s a acc := by
  by_cases hout : WitnessOut s.valN a
  · exact .ends _ _ s.acc (exec_of_answer_out ht ha hout) fun draws => testRounds_of_out draws hout
  by_cases hfail : policyOf i = .s ∧ roundOf i s.valN a = false
  · obtain ⟨hpol, hfail⟩ := hfail
    exact .ends _ _ s.acc (exec_of_fail ht ha hout hpol hfail) fun draws =>
      testRounds_of_fail draws hout hpol hfail
  have hgo (hpol : policyOf i = .s) : roundOf i s.valN a = true := by
    rw [← Bool.not_eq_false]
    exact fun hf => hfail ⟨hpol, hf⟩
  by_cases hk : s.round + 1 < i.count
  · obtain ⟨l, hl, he⟩ := exec_of_more ht ha hout hgo hk
    exact .goesOn l (acc ++ [roundOf i s.valN a]) (fun hp => by rw [hl hp, hacc hp]) he fun draws =>
      testRounds_of_more draws hout hgo hk
  · have hk : i.count ≤ s.round + 1 := Nat.not_lt.1 hk
    obtain ⟨l, he⟩ := exec_of_last ht ha hout hgo hk
    have hverdict : verdict (policyOf i) (s.acc ++ [roundOf i s.valN a]) =
        verdict (policyOf i) (acc ++ [roundOf i s.valN a]) := by
      by_cases hp : policyOf i = .s
      · rw [hp]; rfl
      · rw [hacc hp]
    rw [hverdict] at he
    exact .ends _ _ l he fun draws => testRounds_of_last draws hout hgo hk

/-! ### The engine and the witness source in turn -/

/-- The turns after the first: an answer and the engine's step on it, for each answer. -/
abbrev answerTurns (draws : List Nat) : List Turn := draws.flatMap fun a => [.witness a, .engine]

/-- The state in which the engine finds the answer `a`, with the turns `ts` to come (R262). -/
abbrev State.withAnswer (s : State) (a : Nat) (ts : List Turn) : State :=
  { s with turns := ts, ans := some a, phase := .run }

/-- The witness source answers a waiting test (R262). -/
theorem step_of_answer {s : State} {a : Nat} {ts : List Turn} (ht : s.turns = .witness a :: ts)
    (hr : s.rstN = true) (hp : s.phase = .waitWitness) (hfit : a < 2 ^ s.cfg.nbits) :
    step s = .next (s.withAnswer a ts) := by
  have hstep := (witnessAnswersNeedARequest s ts a ht).2 ((wreq_iff s).2 hp) hr
  rwa [Nat.mod_eq_of_lt hfit] at hstep

/-- The engine's turn on an accepted command (R126, R130). -/
theorem step_of_command {s : State} {c : Word} {i : Instr} {ts : List Turn}
    (ht : s.turns = .engine :: ts) (hr : s.rstN = true) (hp : s.phase = .run)
    (hc : s.cur = some c) (hd : decode c = .ok i) :
    step s = exec i { s with turns := ts } :=
  (engineTurnRunsTheDecodedCommand.1 s c i hr hp hc hd).2 ts ht

/-- An answer and the engine's step on it. -/
theorem run_of_answer {s t : State} {a k : Nat} {c : Word} {i : Instr} {ts : List Turn}
    (ht : s.turns = .witness a :: .engine :: ts) (hr : s.rstN = true)
    (hp : s.phase = .waitWitness) (hfit : a < 2 ^ s.cfg.nbits) (hc : s.cur = some c)
    (hd : decode c = .ok i) (he : exec i (s.withAnswer a ts) = .next t) :
    Host.Core.run Sys2Proof.core (k + 1 + 1) s = Host.Core.run Sys2Proof.core k t := by
  have hengine : step (s.withAnswer a (.engine :: ts)) = .next t :=
    (step_of_command (s := s.withAnswer a (.engine :: ts)) rfl hr rfl hc hd).trans he
  exact (run_of_step (step_of_answer ht hr hp hfit)).trans (run_of_step hengine)

/-- A waiting test, against the answers its rounds use, commits what the rounds give. -/
theorem run_of_rounds {i : Instr} {c : Word} (ht : i.isTest = true) (hd : decode c = .ok i)
    (draws : List Nat) (ts : List Turn) (res : RunResult) (s : State) (acc : List Bool)
    (hr : s.rstN = true) (hp : s.phase = .waitWitness) (hc : s.cur = some c)
    (hacc : policyOf i ≠ .s → s.acc = acc) (hfit : ∀ a ∈ draws, a < 2 ^ s.cfg.nbits)
    (hres : roundsFrom i s draws acc = some res) (hused : res.used = s.round + draws.length)
    (hturns : s.turns = answerTurns draws ++ ts) :
    ∃ (r : Nat) (l : List Bool), Host.Core.run Sys2Proof.core (2 * draws.length) s =
      .next (commit res.outcome
        { s with pend := res.pend, round := r, acc := l, ans := none, turns := ts }) := by
  induction draws generalizing s acc with
  | nil => simp [testRounds] at hres
  | cons a draws ih =>
    have hfita := hfit a List.mem_cons_self
    rw [List.length_cons] at hused
    cases answer_case (s := s.withAnswer a (answerTurns draws ++ ts)) ht rfl hacc with
    | ends o p l he hrounds =>
      obtain rfl : res = ⟨o, p, s.round + 1⟩ := Option.some.inj (hres.symm.trans (hrounds draws))
      obtain rfl : draws = [] := List.eq_nil_of_length_eq_zero (by simpa using hused)
      exact ⟨s.round, l, (run_of_answer hturns hr hp hfita hc hd he).trans (run_zero _)⟩
    | goesOn l acc' hl he hrounds =>
      have hnext : s.round + (draws.length + 1) = s.round + 1 + draws.length := by omega
      obtain ⟨r, l', hrun⟩ := ih (requestWitness { s with
        turns := answerTurns draws ++ ts, ans := none, round := s.round + 1, acc := l }) acc'
        hr rfl hc hl (fun b hb => hfit b (List.mem_cons_of_mem a hb))
        ((hrounds draws).symm.trans hres) (hused.trans hnext) rfl
      exact ⟨r, l', (run_of_answer hturns hr hp hfita hc hd he).trans hrun⟩

/-! ### Words that end in the first step -/

/-- An engine's turn that commits is the whole run, with no answer used. -/
theorem run_of_commit {s : State} {o : Option ErrCode} {p : CommitSet} {ts : List Turn}
    (h : step s = .next (commit o { s with pend := p, turns := ts })) :
    ∃ (r : Nat) (l : List Bool), Host.Core.run Sys2Proof.core 1 s =
      .next (commit o { s with pend := p, round := r, acc := l, turns := ts }) :=
  ⟨s.round, s.acc, (run_of_step h).trans (run_zero _)⟩

/-- A command that draws nothing ends with its result, in the step and in the function (R130). -/
theorem plain_case {i : Instr} (ht : i.isTest = false) (s : State) (ts : List Turn)
    (draws : List Nat) :
    ∃ res, runInstr i s draws = some (plainResult res) ∧
      exec i { s with turns := ts } = .next (finish res { s with turns := ts }) := by
  cases i with
  | nop => exact ⟨nopRun, rfl, rfl⟩
  | bfInit => exact ⟨bfInitRun s, rfl, rfl⟩
  | bfNextT2 => exact ⟨bfNextRun .t2 s, rfl, rfl⟩
  | bfNextT3 => exact ⟨bfNextRun .t3 s, rfl, rfl⟩
  | powmod => exact ⟨powmodRun s, rfl, rfl⟩
  | jacobi => exact ⟨jacobiRun s, rfl, rfl⟩
  | mrTestS | mrTestCA | mrTestCO | ssTest => cases ht

/-- The end of a command without draws is the commit of its result (R124). -/
theorem finish_eq_commit (res : Except ErrCode CommitSet) (s : State) :
    finish res s = commit (plainResult res).outcome { s with pend := (plainResult res).pend } := by
  cases res with
  | ok p => rfl
  | error code => rfl

theorem plainResult_used (res : Except ErrCode CommitSet) : (plainResult res).used = 0 := by
  cases res with
  | ok p => rfl
  | error code => rfl

/-- How a test starts, in the step and in the function: it ends without a draw, or its rounds
follow (R200, R230). -/
inductive StartCase (pass : Nat → Bool) (pol : Policy) (k : Nat) (s : State) : Prop where
  | ends (o : Option ErrCode) (p : CommitSet)
      (he : testStart k s = commit o { s with pend := p })
      (hr : ∀ draws, testRun pass pol s.valN k draws = some ⟨o, p, 0⟩)
  | requests (he : testStart k s = requestWitness s)
      (hr : ∀ draws, testRun pass pol s.valN k draws = testRounds pass pol s.valN k draws 0 [])

theorem start_case (pass : Nat → Bool) (pol : Policy) (k : Nat) (s : State) :
    StartCase pass pol k s := by
  by_cases hk : k = 0
  · exact .ends _ _ (if_pos hk) fun _ => if_pos hk
  by_cases hn : s.valN = 0
  · exact .ends _ _ ((if_neg hk).trans (if_pos hn)) fun _ => (if_neg hk).trans (if_pos hn)
  cases hedge : edge s.valN with
  | some b =>
    exact .ends _ _ (testStart_of_edge hk hn hedge) fun draws => by
      rw [testRun, if_neg hk, if_neg hn, hedge]
  | none =>
    obtain ⟨hodd, hlarge⟩ := (edge_eq_none_iff hn).1 hedge
    exact .requests (testStart_of_odd hk hodd hlarge) fun draws =>
      testRun_of_odd pass pol draws hk hodd hlarge

/-! ### The refinement -/

/-- The run of a legal test (R14). -/
theorem run_of_test {i : Instr} {c : Word} {s : State} {draws : List Nat} {res : RunResult}
    {ts : List Turn} (ht : i.isTest = true) (hd : decode c = .ok i) (hr : s.rstN = true)
    (hp : s.phase = .run) (hc : s.cur = some c) (hans : s.ans = none) (hround : s.round = 0)
    (hacc : s.acc = []) (hfit : ∀ a ∈ draws, a < 2 ^ s.cfg.nbits)
    (hres : runInstr i s draws = some res) (hused : res.used = draws.length)
    (hturns : s.turns = .engine :: (answerTurns draws ++ ts)) :
    ∃ (r : Nat) (l : List Bool), Host.Core.run Sys2Proof.core (1 + 2 * draws.length) s =
      .next (commit res.outcome
        { s with pend := res.pend, round := r, acc := l, turns := ts }) := by
  have hstep : step s = .next (testStart i.count { s with turns := answerTurns draws ++ ts }) :=
    (step_of_command hturns hr hp hc hd).trans (exec_eq_testStart ht hans)
  rw [runInstr_of_test ht] at hres
  cases start_case (roundOf i s.valN) (policyOf i) i.count
      { s with turns := answerTurns draws ++ ts } with
  | ends o p he hrun =>
    rw [he] at hstep
    obtain rfl : res = ⟨o, p, 0⟩ := Option.some.inj (hres.symm.trans (hrun draws))
    obtain rfl : draws = [] := List.eq_nil_of_length_eq_zero hused.symm
    exact run_of_commit hstep
  | requests he hrun =>
    rw [he] at hstep
    have hrounds := (hrun draws).symm.trans hres
    obtain ⟨r, l, hlast⟩ := run_of_rounds ht hd draws ts res
      (requestWitness { s with turns := answerTurns draws ++ ts }) [] hr rfl hc (fun _ => hacc)
      hfit (by rw [roundsFrom, requestWitness_round, hround]; exact hrounds)
      (by rw [requestWitness_round, hround, Nat.zero_add, hused]) rfl
    refine ⟨r, l, ?_⟩
    rw [Nat.add_comm, run_of_step hstep, hlast, ← hans]
    rfl

/-- Settles O51: an illegal word and a command without draws end in the first step, and the rounds
of a test follow those of the function (`run_of_rounds`). -/
theorem stepsRefineTheCommandFunction : Obligations.StepsRefineTheCommandFunction := by
  intro s c draws res ts hr hp hc hans hround hacc hfit hres hused hturns
  have hturns : s.turns = .engine :: (answerTurns draws ++ ts) := hturns
  rw [runCommand] at hres
  cases hd : decode c with
  | error e =>
    rw [hd] at hres
    cases hres
    obtain rfl : draws = [] := List.eq_nil_of_length_eq_zero hused.symm
    have hrun := engineTurn_of_run (s := { s with turns := ts }) hr hp hc
    rw [runWord, hd] at hrun
    exact run_of_commit ((step_of_turn hturns).trans hrun)
  | ok i =>
    rw [hd] at hres
    cases ht : i.isTest with
    | true => exact run_of_test ht hd hr hp hc hans hround hacc hfit hres hused hturns
    | false =>
      obtain ⟨out, hout, he⟩ := plain_case ht s (answerTurns draws ++ ts) draws
      obtain rfl : res = plainResult out := Option.some.inj (hres.symm.trans hout)
      obtain rfl : draws = [] :=
        List.eq_nil_of_length_eq_zero (hused.symm.trans (plainResult_used out))
      refine run_of_commit ?_
      rw [step_of_command hturns hr hp hc hd, he, finish_eq_commit]
      rfl

end Sys2Proof.Machine
end
